-- ==== Sys2Proof/Word.lean ====
section
/-!
DEFINITION. The words of the chasm core: the byte of data, the instruction word, register ids, labels
and program-counter values (spec/00_scope.md R4, R5; spec/30_encoding.md R51, R55, R59).
-/

namespace Sys2Proof

/-- A data value: every register, immediate and memory cell is 8 bits, 0 to 255 (R4, R10, R22). -/
abbrev Byte := BitVec 8

/-- An instruction word: 32 bits (R55, the spec's decision D1). -/
abbrev Word := BitVec 32

/-- A register id, 0 to 7 (R10, R51). -/
abbrev RegId := Fin 8

/-- A label: a 16-bit identifier, looked up in the label table (R25, R59, the spec's decision D4). -/
abbrev Label := BitVec 16

/-- A program-counter value: a natural number that indexes the instruction sequence (R13, R14). -/
abbrev Pc := Nat

end Sys2Proof
end

