-- ==== Sys2Proof/Syntax.lean ====
section
/-!
DEFINITION. The syntax: condition codes, operand kinds (spec/30_encoding.md R51) and the instructions.
`Instr` has one constructor per row of spec/opcode_table.json: a mnemonic with a Value or an Address
operand has two rows there (register and immediate), and `b` has one row per condition code. The 21
shapes of R52, with their operand kinds, are the functions `Instr.ldr` to `Instr.ror` after it.
-/

namespace Sys2Proof

/-- The 15 condition codes, in the order of spec/44_control_transfer.md R150. -/
inductive Cond where
  | al | eq | ne | gt | lt | ge | le | hi | lo | hs | ls | pl | mi | vs | vc
  deriving DecidableEq, Repr

/-- A Value operand: a register reference or an 8-bit immediate constant (R51). -/
inductive Value where
  | reg (r : RegId)
  | imm (k : Byte)
  deriving DecidableEq, Repr

/-- An Address operand: register indirect or an 8-bit absolute address (R51). -/
inductive Address where
  | ind (r : RegId)
  | abs (k : Byte)
  deriving DecidableEq, Repr

/-- The instructions, one constructor per row of spec/opcode_table.json, in the table's order. -/
inductive Instr where
  /-- `ldr dest,[rb]` and `ldr dest,[imm8]` (R110). -/
  | ldrInd (dest rb : RegId)
  | ldrAbs (dest : RegId) (k : Byte)
  /-- `str [rb],src` and `str [imm8],src` (R111). -/
  | strInd (rb src : RegId)
  | strAbs (k : Byte) (src : RegId)
  /-- `mov dest,src` (R112). -/
  | movReg (dest rb : RegId)
  | movImm (dest : RegId) (k : Byte)
  /-- `b{cond} label` (R151). -/
  | bal (label : Label)
  | beq (label : Label)
  | bne (label : Label)
  | bgt (label : Label)
  | blt (label : Label)
  | bge (label : Label)
  | ble (label : Label)
  | bhi (label : Label)
  | blo (label : Label)
  | bhs (label : Label)
  | bls (label : Label)
  | bpl (label : Label)
  | bmi (label : Label)
  | bvs (label : Label)
  | bvc (label : Label)
  /-- `call label` (R152). -/
  | call (label : Label)
  /-- `ret` (R153). -/
  | ret
  /-- `hlt` (R170). -/
  | hlt
  /-- `nop` (R171). -/
  | nop
  /-- `cmp a,b` (R129). -/
  | cmpReg (a rb : RegId)
  | cmpImm (a : RegId) (k : Byte)
  /-- `neg dest,src` (R130). -/
  | negReg (dest rb : RegId)
  | negImm (dest : RegId) (k : Byte)
  /-- `not dest,src` (R131). -/
  | notReg (dest rb : RegId)
  | notImm (dest : RegId) (k : Byte)
  /-- `add dest,a,b` (R124). -/
  | addReg (dest a rb : RegId)
  | addImm (dest a : RegId) (k : Byte)
  /-- `sub dest,a,b` (R125). -/
  | subReg (dest a rb : RegId)
  | subImm (dest a : RegId) (k : Byte)
  /-- `and dest,a,b` (R126). -/
  | andReg (dest a rb : RegId)
  | andImm (dest a : RegId) (k : Byte)
  /-- `or dest,a,b` (R127). -/
  | orReg (dest a rb : RegId)
  | orImm (dest a : RegId) (k : Byte)
  /-- `xor dest,a,b` (R128). -/
  | xorReg (dest a rb : RegId)
  | xorImm (dest a : RegId) (k : Byte)
  /-- `lsl dest,a,b` (R141). -/
  | lslReg (dest a rb : RegId)
  | lslImm (dest a : RegId) (k : Byte)
  /-- `lsr dest,a,b` (R142). -/
  | lsrReg (dest a rb : RegId)
  | lsrImm (dest a : RegId) (k : Byte)
  /-- `asr dest,a,b` (R143). -/
  | asrReg (dest a rb : RegId)
  | asrImm (dest a : RegId) (k : Byte)
  /-- `rol dest,a,b` (R144). -/
  | rolReg (dest a rb : RegId)
  | rolImm (dest a : RegId) (k : Byte)
  /-- `ror dest,a,b` (R145). -/
  | rorReg (dest a rb : RegId)
  | rorImm (dest a : RegId) (k : Byte)
  deriving DecidableEq, Repr

namespace Instr

/-! The 21 decoded shapes of R52, each a function of its operands in the spec's order and kinds. -/

/-- `ldr dest,[addr]`: Reg, Address. -/
def ldr (dest : RegId) : Address → Instr
  | .ind r => ldrInd dest r
  | .abs k => ldrAbs dest k

/-- `str [addr],src`: Address, Reg. -/
def str (addr : Address) (src : RegId) : Instr :=
  match addr with
  | .ind r => strInd r src
  | .abs k => strAbs k src

/-- `mov dest,src`: Reg, Value. -/
def mov (dest : RegId) : Value → Instr
  | .reg r => movReg dest r
  | .imm k => movImm dest k

/-- `b{cond} label`: Cond, Label. -/
def b (cond : Cond) (label : Label) : Instr :=
  match cond with
  | .al => bal label
  | .eq => beq label
  | .ne => bne label
  | .gt => bgt label
  | .lt => blt label
  | .ge => bge label
  | .le => ble label
  | .hi => bhi label
  | .lo => blo label
  | .hs => bhs label
  | .ls => bls label
  | .pl => bpl label
  | .mi => bmi label
  | .vs => bvs label
  | .vc => bvc label

/-- `cmp a,b`: Reg, Value. -/
def cmp (a : RegId) : Value → Instr
  | .reg r => cmpReg a r
  | .imm k => cmpImm a k

/-- `neg dest,src`: Reg, Value. -/
def neg (dest : RegId) : Value → Instr
  | .reg r => negReg dest r
  | .imm k => negImm dest k

/-- `not dest,src`: Reg, Value. -/
def not (dest : RegId) : Value → Instr
  | .reg r => notReg dest r
  | .imm k => notImm dest k

/-- `add dest,a,b`: Reg, Reg, Value. -/
def add (dest a : RegId) : Value → Instr
  | .reg r => addReg dest a r
  | .imm k => addImm dest a k

/-- `sub dest,a,b`: Reg, Reg, Value. -/
def sub (dest a : RegId) : Value → Instr
  | .reg r => subReg dest a r
  | .imm k => subImm dest a k

/-- `and dest,a,b`: Reg, Reg, Value. -/
def and (dest a : RegId) : Value → Instr
  | .reg r => andReg dest a r
  | .imm k => andImm dest a k

/-- `or dest,a,b`: Reg, Reg, Value. -/
def or (dest a : RegId) : Value → Instr
  | .reg r => orReg dest a r
  | .imm k => orImm dest a k

/-- `xor dest,a,b`: Reg, Reg, Value. -/
def xor (dest a : RegId) : Value → Instr
  | .reg r => xorReg dest a r
  | .imm k => xorImm dest a k

/-- `lsl dest,a,b`: Reg, Reg, Value. -/
def lsl (dest a : RegId) : Value → Instr
  | .reg r => lslReg dest a r
  | .imm k => lslImm dest a k

/-- `lsr dest,a,b`: Reg, Reg, Value. -/
def lsr (dest a : RegId) : Value → Instr
  | .reg r => lsrReg dest a r
  | .imm k => lsrImm dest a k

/-- `asr dest,a,b`: Reg, Reg, Value. -/
def asr (dest a : RegId) : Value → Instr
  | .reg r => asrReg dest a r
  | .imm k => asrImm dest a k

/-- `rol dest,a,b`: Reg, Reg, Value. -/
def rol (dest a : RegId) : Value → Instr
  | .reg r => rolReg dest a r
  | .imm k => rolImm dest a k

/-- `ror dest,a,b`: Reg, Reg, Value. -/
def ror (dest a : RegId) : Value → Instr
  | .reg r => rorReg dest a r
  | .imm k => rorImm dest a k

/-- The label an instruction names: only `b{cond}` and `call` have one (R25). -/
def label? : Instr → Option Label
  | bal l => some l
  | beq l => some l
  | bne l => some l
  | bgt l => some l
  | blt l => some l
  | bge l => some l
  | ble l => some l
  | bhi l => some l
  | blo l => some l
  | bhs l => some l
  | bls l => some l
  | bpl l => some l
  | bmi l => some l
  | bvs l => some l
  | bvc l => some l
  | call l => some l
  | ldrInd _ _ | ldrAbs _ _ | strInd _ _ | strAbs _ _ | movReg _ _
  | movImm _ _ | ret | hlt | nop | cmpReg _ _
  | cmpImm _ _ | negReg _ _ | negImm _ _ | notReg _ _ | notImm _ _
  | addReg _ _ _ | addImm _ _ _ | subReg _ _ _ | subImm _ _ _ | andReg _ _ _
  | andImm _ _ _ | orReg _ _ _ | orImm _ _ _ | xorReg _ _ _ | xorImm _ _ _
  | lslReg _ _ _ | lslImm _ _ _ | lsrReg _ _ _ | lsrImm _ _ _ | asrReg _ _ _
  | asrImm _ _ _ | rolReg _ _ _ | rolImm _ _ _ | rorReg _ _ _ | rorImm _ _ _ => none

end Instr

end Sys2Proof
end

