-- ==== Sys2Proof/Decode.lean ====
section
/-!
DEFINITION. The instruction word of spec/30_encoding.md Part B (the spec's decisions D1 to D5): its
fields (R55), the decoder, total on all 2^32 words and refusing by name (R61 to R64), and after it the
encoder (R66), written from the same tables.
-/

namespace Sys2Proof

/-- The six fields of an instruction word, from the most significant (R55). -/
structure Fields where
  op   : BitVec 5
  cond : BitVec 4
  rd   : BitVec 3
  ra   : BitVec 3
  i    : BitVec 1
  k    : BitVec 16
  deriving DecidableEq, Repr

/-- The fields of a word: `op` W[31:27], `cond` W[26:23], `rd` W[22:20], `ra` W[19:17], `i` W[16],
`k` W[15:0] (R55). -/
def Fields.ofWord (w : Word) : Fields where
  op   := w.extractLsb' 27 5
  cond := w.extractLsb' 23 4
  rd   := w.extractLsb' 20 3
  ra   := w.extractLsb' 17 3
  i    := w.extractLsb' 16 1
  k    := w.extractLsb' 0 16

/-- The word with these fields (R55). -/
def Fields.toWord (f : Fields) : Word :=
  f.op ++ f.cond ++ f.rd ++ f.ra ++ f.i ++ f.k

/-- Why a word is unsupported; each raises `UnsupportedInstruction` when reached (R61, R184). The names are the
model's own (DESIGN CHOICE, notes/assumptions/18.md). -/
inductive Reject where
  /-- Opcode number 21 to 31 (R62). -/
  | reservedOpcode
  /-- Condition number 15 in a `b` word (R63). -/
  | reservedCondition
  /-- A field the format does not use is not zero (R64). -/
  | unusedField
  /-- A must-be-zero part of the operand field `k` is not zero (R58, R64). -/
  | operandBits
  deriving DecidableEq, Repr

/-- The register id a 3-bit field names (R55). -/
def regOfField (b : BitVec 3) : RegId := ⟨b.toNat, b.isLt⟩

/-- The 3-bit field that names a register (R55). -/
def fieldOfReg (r : RegId) : BitVec 3 := BitVec.ofNat 3 r.val

/-- Condition numbers (R57); number 15 is reserved (R63). -/
def condOfField (b : BitVec 4) : Except Reject Cond :=
  match b.toNat with
  | 0 => .ok .al | 1 => .ok .eq | 2 => .ok .ne | 3 => .ok .gt | 4 => .ok .lt
  | 5 => .ok .ge | 6 => .ok .le | 7 => .ok .hi | 8 => .ok .lo | 9 => .ok .hs
  | 10 => .ok .ls | 11 => .ok .pl | 12 => .ok .mi | 13 => .ok .vs | 14 => .ok .vc
  | _ => .error .reservedCondition

/-- A Value operand from `i` and `k` (R58). -/
def valueOfFields (i : BitVec 1) (k : BitVec 16) : Except Reject Value :=
  if i = 1 then
    if k.extractLsb' 8 8 = 0 then .ok (.imm (k.extractLsb' 0 8)) else .error .operandBits
  else
    if k.extractLsb' 3 13 = 0 then .ok (.reg (regOfField (k.extractLsb' 0 3))) else .error .operandBits

/-- An Address operand from `i` and `k`: as a Value, `Ind` for `Reg` and `Abs` for `Imm` (R58). -/
def addressOfFields (i : BitVec 1) (k : BitVec 16) : Except Reject Address :=
  match valueOfFields i k with
  | .ok (.reg r) => .ok (.ind r)
  | .ok (.imm a) => .ok (.abs a)
  | .error e => .error e

/-- `x` where the fields a format fixes at 0 are 0 (R60, R64). -/
def ifZero (unused : Bool) (x : Except Reject Instr) : Except Reject Instr :=
  if unused then x else .error .unusedField

/-- Format RRV: `rd` is `dest`, `ra` is `a`, `i` and `k` hold `b` (R60). -/
def Fields.formatRRV (f : Fields) (mk : RegId → RegId → Value → Instr) : Except Reject Instr :=
  ifZero (f.cond = 0) ((valueOfFields f.i f.k).map (mk (regOfField f.rd) (regOfField f.ra)))

/-- Format RV: `rd` is `dest`, `i` and `k` hold `src` (R60). -/
def Fields.formatRV (f : Fields) (mk : RegId → Value → Instr) : Except Reject Instr :=
  ifZero (f.cond = 0 ∧ f.ra = 0) ((valueOfFields f.i f.k).map (mk (regOfField f.rd)))

/-- Format CV: `ra` is `a`, `i` and `k` hold `b` (R60). -/
def Fields.formatCV (f : Fields) (mk : RegId → Value → Instr) : Except Reject Instr :=
  ifZero (f.cond = 0 ∧ f.rd = 0) ((valueOfFields f.i f.k).map (mk (regOfField f.ra)))

/-- Format LD: `rd` is `dest`, `i` and `k` hold `addr` (R60). -/
def Fields.formatLD (f : Fields) (mk : RegId → Address → Instr) : Except Reject Instr :=
  ifZero (f.cond = 0 ∧ f.ra = 0) ((addressOfFields f.i f.k).map (mk (regOfField f.rd)))

/-- Format ST: `ra` is `src`, `i` and `k` hold `addr` (R60). -/
def Fields.formatST (f : Fields) (mk : Address → RegId → Instr) : Except Reject Instr :=
  ifZero (f.cond = 0 ∧ f.rd = 0) ((addressOfFields f.i f.k).map (mk · (regOfField f.ra)))

/-- Format B: `cond` is the condition number, `k` the label identifier (R59, R60). -/
def Fields.formatB (f : Fields) (mk : Cond → Label → Instr) : Except Reject Instr :=
  ifZero (f.rd = 0 ∧ f.ra = 0 ∧ f.i = 0) ((condOfField f.cond).map (mk · f.k))

/-- Format L: `k` is the label identifier (R59, R60). -/
def Fields.formatL (f : Fields) (mk : Label → Instr) : Except Reject Instr :=
  ifZero (f.cond = 0 ∧ f.rd = 0 ∧ f.ra = 0 ∧ f.i = 0) (.ok (mk f.k))

/-- Format Z: only the opcode (R60). -/
def Fields.formatZ (f : Fields) (ins : Instr) : Except Reject Instr :=
  ifZero (f.cond = 0 ∧ f.rd = 0 ∧ f.ra = 0 ∧ f.i = 0 ∧ f.k = 0) (.ok ins)

/-- The decoder on fields: the opcode numbers of R56, each with its format of R60; 21 and above are
reserved (R61, R62). -/
def Fields.decode (f : Fields) : Except Reject Instr :=
  match f.op.toNat with
  | 0 => f.formatLD .ldr
  | 1 => f.formatST .str
  | 2 => f.formatRV .mov
  | 3 => f.formatB .b
  | 4 => f.formatL .call
  | 5 => f.formatZ .ret
  | 6 => f.formatZ .hlt
  | 7 => f.formatZ .nop
  | 8 => f.formatCV .cmp
  | 9 => f.formatRV .neg
  | 10 => f.formatRV .not
  | 11 => f.formatRRV .add
  | 12 => f.formatRRV .sub
  | 13 => f.formatRRV .and
  | 14 => f.formatRRV .or
  | 15 => f.formatRRV .xor
  | 16 => f.formatRRV .lsl
  | 17 => f.formatRRV .lsr
  | 18 => f.formatRRV .asr
  | 19 => f.formatRRV .rol
  | 20 => f.formatRRV .ror
  | _ => .error .reservedOpcode

/-- `Decode(W)` of R61, total on all words. -/
def decode (w : Word) : Except Reject Instr := (Fields.ofWord w).decode

/-! The encoder (R66): the fields placed as in R55 to R60, every unused bit 0. -/

/-- The fields of a word in which every field but the opcode is 0 (format Z of R60). -/
def Fields.opcode (op : Nat) : Fields :=
  { op := BitVec.ofNat 5 op, cond := 0, rd := 0, ra := 0, i := 0, k := 0 }

/-- The operand field for a register: `i` is 0, `k[2:0]` the id (R58). -/
def Fields.withReg (f : Fields) (r : RegId) : Fields :=
  { f with i := 0, k := (fieldOfReg r).setWidth 16 }

/-- The operand field for an 8-bit immediate: `i` is 1, `k[7:0]` the constant (R58). -/
def Fields.withImm (f : Fields) (k : Byte) : Fields :=
  { f with i := 1, k := k.setWidth 16 }

/-- The destination field (R55). -/
def Fields.withRd (f : Fields) (r : RegId) : Fields := { f with rd := fieldOfReg r }

/-- The first source register field (R55). -/
def Fields.withRa (f : Fields) (r : RegId) : Fields := { f with ra := fieldOfReg r }

/-- The label field (R59). -/
def Fields.withLabel (f : Fields) (l : Label) : Fields := { f with k := l }

/-- A branch word's fields: opcode 3 and the condition number (R57, R60). -/
def Fields.branch (cond : Nat) (l : Label) : Fields :=
  { Fields.opcode 3 with cond := BitVec.ofNat 4 cond, k := l }

/-- The fields of an instruction's word (R55 to R60). -/
def Instr.fields : Instr → Fields
  | .ldrInd dest rb => ((Fields.opcode 0).withRd dest).withReg rb
  | .ldrAbs dest k => ((Fields.opcode 0).withRd dest).withImm k
  | .strInd rb src => ((Fields.opcode 1).withRa src).withReg rb
  | .strAbs k src => ((Fields.opcode 1).withRa src).withImm k
  | .movReg dest rb => ((Fields.opcode 2).withRd dest).withReg rb
  | .movImm dest k => ((Fields.opcode 2).withRd dest).withImm k
  | .bal l => Fields.branch 0 l
  | .beq l => Fields.branch 1 l
  | .bne l => Fields.branch 2 l
  | .bgt l => Fields.branch 3 l
  | .blt l => Fields.branch 4 l
  | .bge l => Fields.branch 5 l
  | .ble l => Fields.branch 6 l
  | .bhi l => Fields.branch 7 l
  | .blo l => Fields.branch 8 l
  | .bhs l => Fields.branch 9 l
  | .bls l => Fields.branch 10 l
  | .bpl l => Fields.branch 11 l
  | .bmi l => Fields.branch 12 l
  | .bvs l => Fields.branch 13 l
  | .bvc l => Fields.branch 14 l
  | .call l => (Fields.opcode 4).withLabel l
  | .ret => Fields.opcode 5
  | .hlt => Fields.opcode 6
  | .nop => Fields.opcode 7
  | .cmpReg a rb => ((Fields.opcode 8).withRa a).withReg rb
  | .cmpImm a k => ((Fields.opcode 8).withRa a).withImm k
  | .negReg dest rb => ((Fields.opcode 9).withRd dest).withReg rb
  | .negImm dest k => ((Fields.opcode 9).withRd dest).withImm k
  | .notReg dest rb => ((Fields.opcode 10).withRd dest).withReg rb
  | .notImm dest k => ((Fields.opcode 10).withRd dest).withImm k
  | .addReg dest a rb => (((Fields.opcode 11).withRd dest).withRa a).withReg rb
  | .addImm dest a k => (((Fields.opcode 11).withRd dest).withRa a).withImm k
  | .subReg dest a rb => (((Fields.opcode 12).withRd dest).withRa a).withReg rb
  | .subImm dest a k => (((Fields.opcode 12).withRd dest).withRa a).withImm k
  | .andReg dest a rb => (((Fields.opcode 13).withRd dest).withRa a).withReg rb
  | .andImm dest a k => (((Fields.opcode 13).withRd dest).withRa a).withImm k
  | .orReg dest a rb => (((Fields.opcode 14).withRd dest).withRa a).withReg rb
  | .orImm dest a k => (((Fields.opcode 14).withRd dest).withRa a).withImm k
  | .xorReg dest a rb => (((Fields.opcode 15).withRd dest).withRa a).withReg rb
  | .xorImm dest a k => (((Fields.opcode 15).withRd dest).withRa a).withImm k
  | .lslReg dest a rb => (((Fields.opcode 16).withRd dest).withRa a).withReg rb
  | .lslImm dest a k => (((Fields.opcode 16).withRd dest).withRa a).withImm k
  | .lsrReg dest a rb => (((Fields.opcode 17).withRd dest).withRa a).withReg rb
  | .lsrImm dest a k => (((Fields.opcode 17).withRd dest).withRa a).withImm k
  | .asrReg dest a rb => (((Fields.opcode 18).withRd dest).withRa a).withReg rb
  | .asrImm dest a k => (((Fields.opcode 18).withRd dest).withRa a).withImm k
  | .rolReg dest a rb => (((Fields.opcode 19).withRd dest).withRa a).withReg rb
  | .rolImm dest a k => (((Fields.opcode 19).withRd dest).withRa a).withImm k
  | .rorReg dest a rb => (((Fields.opcode 20).withRd dest).withRa a).withReg rb
  | .rorImm dest a k => (((Fields.opcode 20).withRd dest).withRa a).withImm k

/-- `Encode` of R66: the one word of an instruction. -/
def encode (ins : Instr) : Word := ins.fields.toWord

/-- The instruction the decoder reads from an instruction whose bits are `w`, numbered as
spec/opcode_table.json numbers them: bit 0 is the least significant bit of the one 32-bit word. The
store is word-addressed and has no byte order (R34, R67), so the word is the number. -/
def decodeTableWord (nbits w : Nat) : Option Instr :=
  match decode (BitVec.ofNat 32 (w % 2 ^ nbits)) with
  | .ok ins => some ins
  | .error _ => none

end Sys2Proof
end

