-- ==== Sys2Proof/Config.lean ====
section
/-!
DEFINITION. What is fixed for the machine: the constants of spec/00_scope.md R4, what a memory byte
nothing has written reads as, and the spec's OPEN parameters (spec/92_eei_decisions.md, "Open
parameters in one place"). This machine leaves no value free: every result of every instruction is
given by the spec, so there is no uninterpreted constant here.
-/

namespace Sys2Proof.Config

/-- `MEM_SIZE`, the bytes of data memory (R4, R22). An address is valid exactly when it is below it (R33). -/
def memSize : Nat := 256

/-- What a byte of data memory reads as when nothing has stored to it since reset (R12, R22, R27). -/
def emptyByte : Byte := 0

/-- The word `State.withFetchWord` puts into the places of the instruction sequence that lie before the
word it places and hold nothing: an unsupported word (R62). DESIGN CHOICE, notes/assumptions/3.md. -/
def paddingWord : Word := 0xFFFFFFFF

/-- The OPEN parameters of a realisation (R5; decisions D8 and D18). A step reads them and never
changes them. DESIGN CHOICE, notes/assumptions/2.md: they stand in `State` as plain data, so that every
statement holds for every value of them. -/
structure Params where
  /-- `STACK_DEPTH` (R5, R185): `none` is the normative unbounded call stack. -/
  stackDepth : Option Nat
  /-- `HIST_DEPTH` (R5, R102): `none` is the unbounded undo history, `some 0` is a machine without one. -/
  histDepth : Option Nat
  deriving DecidableEq, Repr

/-- The defaults the spec names: an unbounded call stack and an unbounded history. -/
def Params.default : Params := { stackDepth := none, histDepth := none }

end Sys2Proof.Config
end

