-- ==== Sys2Proof/Machine/State.lean ====
section
/-!
DEFINITION. The state of the chasm core as plain data: the Processor State (spec/10_state.md R26), the
Effect (spec/40_step_and_effect.md R84), the Program the host supplies (R24, R25), the undo history and
the report of the last step request (R28), the reasons a step can stop, and the state after reset (R27,
R200, R201).
-/

namespace Sys2Proof.Machine

open Sys2Proof.Config (Params)

/-- Data memory (R22): the bytes that differ from `Config.emptyByte`, by rising address (DESIGN CHOICE,
notes/assumptions/10.md). -/
abbrev Memory := List Host.Cell

/-- The four condition flags (R16). -/
structure Flags where
  z : Bool
  c : Bool
  n : Bool
  v : Bool
  deriving DecidableEq, Repr

/-- The `flags` field of an Effect: "any subset of the four flags" (R84). -/
structure FlagUpdate where
  z : Option Bool := none
  c : Option Bool := none
  n : Option Bool := none
  v : Option Bool := none
  deriving DecidableEq, Repr

/-- The `stack` field of an Effect: a push or a pop, never both (R84). -/
inductive StackOp where
  | push (v : Pc)
  | pop
  deriving DecidableEq, Repr

/-- An Effect: the optional, independently present changes of one instruction (R84), each value in its
domain by type (R85). `write` carries a natural number as address, so that an address beyond the memory
can be given to `apply` from outside. -/
structure Effect where
  flags : Option FlagUpdate := none
  write : Option (Nat × Byte) := none
  reg   : Option (RegId × Byte) := none
  jump  : Option Pc := none
  stack : Option StackOp := none
  halt  : Option Bool := none
  deriving DecidableEq, Repr

/-- The Processor State of R26. `cs` is written as the spec writes it: the top is the LAST entry (R20, R89). -/
structure Proc where
  /-- The eight general registers (R10). -/
  x      : Vector Byte 8
  /-- Data memory (R22). -/
  mem    : Memory
  /-- The condition flags (R16). -/
  flags  : Flags
  /-- The program counter, an index into the instruction sequence (R13, R14). -/
  pc     : Pc
  /-- The call stack, oldest entry first, the top last (R20). -/
  cs     : List Pc
  /-- The halted flag (R19). -/
  halted : Bool
  deriving DecidableEq, Repr

/-- Why a step stops without a next state. The first four are the spec's failures (R180, R185), the last
two its stop conditions, which are not failures (R186). All leave the state as it was (R183, R186), so none
carries one (DEDUCED, notes/assumptions/4.md). -/
inductive Fault where
  /-- `OutOfRange(addr)`: raised by a memory read or write, by `apply` and by `invert`, at an address of
  256 or more (R181). No instruction can raise it (R44). Safe: the spec names the failure. -/
  | outOfRange (addr : Nat)
  /-- `UnknownLabel(label)`: raised by `call` and by a taken `b{cond}` whose label is not in the table
  (R182). Safe: the spec names the failure. -/
  | unknownLabel (label : Label)
  /-- `UnsupportedInstruction(W)`: raised by the step that reaches a word no instruction has (R184).
  Safe: the spec names the failure. -/
  | unsupportedInstruction (w : Word)
  /-- `StackOverflow`: raised by a `call` that finds a stack of finite `STACK_DEPTH` full (R185). It
  never fires with the default parameters. Safe: the source's machine would go on. -/
  | stackOverflow
  /-- `Stopped(Halted)`: raised by a step of a halted core (R186). Safe: the spec names the stop. -/
  | stoppedHalted
  /-- `Stopped(PcOutOfRange)`: raised by a step whose `pc` is at or beyond the program's end (R186).
  Safe: the spec names the stop. -/
  | stoppedPcOutOfRange
  deriving DecidableEq, Repr

/-- Why a step is refused. Every instruction has its meaning, so nothing raises a refusal. -/
inductive Refusal where
  /-- An instruction whose arm of `exec` has no meaning yet: raised by no arm. Safe: it stops. -/
  | notModelled (mnemonic : String)
  deriving DecidableEq, Repr

/-- Everything the spec gives the machine: the Processor State; the Program, read-only to every
instruction (R24, R25); the realisation's OPEN parameters (R5); and the two holders of information
outside the Processor State (R28). DESIGN CHOICE, notes/assumptions/1.md and 2.md: the Program and the
parameters stand here because the step is one function of the state. -/
structure State where
  proc    : Proc
  /-- The instruction sequence `I`, one word per instruction; its length is `N` (R24, R55). -/
  code    : List Word
  /-- The label table `L`: label and pc value (R25). -/
  labels  : List (Label × Pc)
  params  : Params
  /-- The undo history, oldest pair first: the state before a step and the Effect it committed (R102). -/
  history : List (Proc × Effect)
  /-- The report of the last step request: `none` is "running", status 0 (R187). `step` clears it and
  `State.request` sets it (DESIGN CHOICE, notes/assumptions/5.md). -/
  report  : Option Fault
  deriving DecidableEq, Repr

/-- The Processor State after reset: "all zero, not halted" (R27, R200). -/
def Proc.reset : Proc where
  x      := Vector.replicate 8 0
  mem    := []
  flags  := { z := false, c := false, n := false, v := false }
  pc     := 0
  cs     := []
  halted := false

/-- The machine right after reset, before the host has supplied a Program (R27, R200, R201): an empty
program (DESIGN CHOICE, notes/assumptions/15.md), the default parameters, an empty history, report "running". -/
def State.reset : State where
  proc    := Proc.reset
  code    := []
  labels  := []
  params  := Params.default
  history := []
  report  := none

end Sys2Proof.Machine
end

