-- ==== Sys2Proof/Machine/Ops.lean ====
section
/-!
DEFINITION. The named operations over the pieces of state: data memory in its canonical form
(spec/20_memory.md R31 to R33), registers (spec/10_state.md R10), the call stack (R20, R21), the label
table (spec/44_control_transfer.md R154) and instruction fetch (spec/40_step_and_effect.md R83).
This machine has no exceptions to take: a failure saves nothing, changes nothing, goes nowhere and is
reported to the host (spec/60_exceptions.md R183, R190, R191), so it is `Host.Outcome.fault`.
-/

namespace Sys2Proof.Machine

/-- The byte at an address: the listed byte, or `Config.emptyByte` (R12, R22). -/
def Memory.read : Memory → Nat → Byte
  | [], _ => Config.emptyByte
  | (a, v) :: rest, addr => if addr = a then v else Memory.read rest addr

/-- `m` with `v` at the head address `addr`, unlisted where `v` is what an unlisted address reads as. -/
def Memory.cons (addr : Nat) (v : Byte) (m : Memory) : Memory :=
  if v = Config.emptyByte then m else (addr, v) :: m

/-- `m` with the byte at `addr` replaced by `v`, every other byte as it was (R32). -/
def Memory.write : Memory → Nat → Byte → Memory
  | [], addr, v => Memory.cons addr v []
  | (a, x) :: rest, addr, v =>
    if addr < a then Memory.cons addr v ((a, x) :: rest)
    else if addr = a then Memory.cons addr v rest
    else (a, x) :: Memory.write rest addr v

/-- The canonical form from address `lo` on: addresses strictly rising and inside the memory, no entry
equal to what an unlisted address reads as. -/
def Memory.wfFrom : Nat → Memory → Bool
  | _, [] => true
  | lo, (a, v) :: rest =>
    decide (lo ≤ a) && decide (a < Config.memSize) && decide (v ≠ Config.emptyByte) &&
      Memory.wfFrom (a + 1) rest

/-- The canonical form of data memory, so that equal memories are equal lists (R22, R26). -/
def Memory.wf (m : Memory) : Bool := Memory.wfFrom 0 m

/-- `MemRead(addr, 1)` (R31), under the bound rule of R33. -/
def memRead (m : Memory) (addr : Nat) : Except Fault Byte :=
  if addr < Config.memSize then .ok (m.read addr) else .error (.outOfRange addr)

/-- `MemWrite(addr, 1, v)` (R32), under the bound rule of R33. -/
def memWrite (m : Memory) (addr : Nat) (v : Byte) : Except Fault Memory :=
  if addr < Config.memSize then .ok (m.write addr v) else .error (.outOfRange addr)

/-- `x[r]` (R10, R11: no register is hardwired). -/
def Proc.reg (p : Proc) (r : RegId) : Byte := p.x.get r

/-- The register file with `x[r]` replaced by `v`: "exactly one register" (R87). -/
def setReg (x : Vector Byte 8) (r : RegId) (v : Byte) : Vector Byte 8 := x.set r.val v r.isLt

/-- `push(cs, v)`: `v` appended as the new top (R89). A finite stack that is full raises
`StackOverflow` (R185). -/
def push (depth : Option Nat) (cs : List Pc) (v : Pc) : Except Fault (List Pc) :=
  match depth with
  | none => .ok (cs ++ [v])
  | some d => if cs.length < d then .ok (cs ++ [v]) else .error .stackOverflow

/-- `pop(cs)`: the top removed; "popping an empty stack is a no-op, not an error" (R89). -/
def pop (cs : List Pc) : List Pc := cs.dropLast

/-- `top(cs)`, the last pushed entry, where there is one (R20). -/
def top (cs : List Pc) : Option Pc := cs.getLast?

/-- `L(label)`: the label's pc value, or `UnknownLabel` (R154, R182). A table that lists a label twice
gives the first entry (DESIGN CHOICE, notes/assumptions/9.md). -/
def lookupLabel : List (Label × Pc) → Label → Except Fault Pc
  | [], label => .error (.unknownLabel label)
  | (l, t) :: rest, label => if label = l then .ok t else lookupLabel rest label

/-- Fetch: the word `I[pc]`, absent when `pc >= N` (R81, R83). -/
def State.fetch (s : State) : Option Word := s.code[s.proc.pc]?

end Sys2Proof.Machine
end

