-- ==== Sys2Proof/Machine/Operands.lean ====
section
/-!
DEFINITION. The operand forms (spec/30_encoding.md R53, R54). Both read the state before the instruction.
-/

namespace Sys2Proof.Machine

/-- `value(o)`: a register's content or the immediate (R53). -/
def Proc.value (p : Proc) : Value → Byte
  | .reg r => p.reg r
  | .imm k => k

/-- `resolve(o)`: a register's content or the absolute address, a byte either way (R54). -/
def Proc.resolve (p : Proc) : Address → Byte
  | .ind r => p.reg r
  | .abs k => k

end Sys2Proof.Machine
end

