-- ==== Sys2Proof/Machine/Effect.lean ====
section
/-!
DEFINITION. The commit unit `Apply` (spec/40_step_and_effect.md R86 to R92), the undo unit `Invert` (R93
to R98), the history (R102), and the one way every instruction's Effect reaches the state (R81 steps 5
to 8).
-/

namespace Sys2Proof.Machine

/-! Commit, field by field. -/

/-- R86: "present sub-fields overwrite, absent ones keep prior value". -/
def applyFlags (f : Flags) : Option FlagUpdate → Flags
  | none => f
  | some u => { z := u.z.getD f.z, c := u.c.getD f.c, n := u.n.getD f.n, v := u.v.getD f.v }

/-- R87: "a register update replaces exactly one register". -/
def applyReg (x : Vector Byte 8) : Option (RegId × Byte) → Vector Byte 8
  | none => x
  | some (r, v) => setReg x r v

/-- R87: "a memory write replaces exactly one byte", or `OutOfRange`. -/
def applyWrite (m : Memory) : Option (Nat × Byte) → Except Fault Memory
  | none => .ok m
  | some (addr, v) => memWrite m addr v

/-- R89, and R185 where the depth is finite. -/
def applyStack (depth : Option Nat) (cs : List Pc) : Option StackOp → Except Fault (List Pc)
  | none => .ok cs
  | some (.push v) => push depth cs v
  | some .pop => .ok (pop cs)

/-- `Apply(S, e)`: all fields together, or a failure and no state (R86 to R92). Where both `OutOfRange`
and `StackOverflow` would fire, which no instruction's Effect can, `OutOfRange` is reported (DESIGN
CHOICE, notes/assumptions/7.md). -/
def apply (depth : Option Nat) (p : Proc) (e : Effect) : Except Fault Proc :=
  match applyWrite p.mem e.write with
  | .error f => .error f
  | .ok mem =>
    match applyStack depth p.cs e.stack with
    | .error f => .error f
    | .ok cs => .ok
        { x := applyReg p.x e.reg
          mem := mem
          flags := applyFlags p.flags e.flags
          pc := e.jump.getD (p.pc + 1)
          cs := cs
          halted := e.halt.getD p.halted }

/-! Undo, field by field: `P` is the state before the commit. -/

/-- R93: each flag that is present carries the flag's value before. -/
def invertFlags (f : Flags) (u : FlagUpdate) : FlagUpdate :=
  { z := u.z.map fun _ => f.z, c := u.c.map fun _ => f.c
    n := u.n.map fun _ => f.n, v := u.v.map fun _ => f.v }

/-- R94: the byte that was overwritten, or `OutOfRange` (the spec's decision D19). -/
def invertWrite (m : Memory) : Option (Nat × Byte) → Except Fault (Option (Nat × Byte))
  | none => .ok none
  | some (addr, _) =>
    match memRead m addr with
    | .error f => .error f
    | .ok v => .ok (some (addr, v))

/-- R97: a push is undone by a pop, a pop by a push of the entry it removed, if it removed one. -/
def invertStack (cs : List Pc) : Option StackOp → Option StackOp
  | none => none
  | some (.push _) => some .pop
  | some .pop => (top cs).map StackOp.push

/-- R98: only a present and true `halt` is inverted. -/
def invertHalt : Option Bool → Option Bool
  | some true => some false
  | _ => none

/-- `Invert(P, e)` (R93 to R98). -/
def invert (p : Proc) (e : Effect) : Except Fault Effect :=
  match invertWrite p.mem e.write with
  | .error f => .error f
  | .ok write => .ok
      { flags := e.flags.map (invertFlags p.flags)
        write := write
        reg := e.reg.map fun u => (u.1, p.reg u.1)
        jump := some p.pc
        stack := invertStack p.cs e.stack
        halt := invertHalt e.halt }

/-! From an Effect to the next state. -/

/-- `history ++ [entry]`, of which a finite `HIST_DEPTH` keeps the newest entries (R102; which entry a
full history loses is a DESIGN CHOICE, notes/assumptions/6.md). -/
def recordHistory (depth : Option Nat) (history : List (Proc × Effect)) (entry : Proc × Effect) :
    List (Proc × Effect) :=
  match depth with
  | none => history ++ [entry]
  | some d => (history ++ [entry]).drop (history.length + 1 - d)

/-- The state after a successful step that committed `e` and gave `p` (R81 steps 7 and 8, R187). -/
def State.stepped (s : State) (p : Proc) (e : Effect) : State :=
  { s with
    proc := p
    history := recordHistory s.params.histDepth s.history (s.proc, e)
    report := none }

/-- Steps 5 to 8 of R81 for the outcome of the execute stage: a failure ends the step with the state as
it was (R183), an Effect is committed, recorded and reported. -/
def State.perform (s : State) (outcome : Except Fault Effect) : Host.Outcome State Fault Refusal :=
  match outcome with
  | .error f => .fault f
  | .ok e =>
    match apply s.params.stackDepth s.proc e with
    | .error f => .fault f
    | .ok p => .next (s.stepped p e)

end Sys2Proof.Machine
end

