-- ==== Sys2Proof/Machine/Flags.lean ====
section
/-!
DEFINITION. The flag unit (spec/42_arith_logic.md R120, R121, R123) and the condition-code unit
(spec/44_control_transfer.md R150).
-/

namespace Sys2Proof.Machine

/-- `hb(v) = v[7]`, the high bit of a byte (spec/00_scope.md section 5.1). -/
def hb (v : Byte) : Bool := v.getLsbD 7

/-- `neg2c(x) = (256 - x) mod 256`: two's-complement negation (R121). -/
def neg2c (x : Byte) : Byte := BitVec.ofNat 8 ((256 - x.toNat) % 256)

/-- `c & 0xFF` as a byte (R120, R122). -/
def lowByte (c : Nat) : Byte := BitVec.ofNat 8 (c &&& 0xFF)

/-- The shared flag rule `flags_from(a, b, c)` (R120). -/
def flagsFrom (a b : Byte) (c : Nat) : Flags :=
  let result := lowByte c
  { z := result = 0
    c := c >>> 8 ≠ 0
    n := 0x80 ≤ result.toNat
    v := hb a = hb b ∧ hb result ≠ hb a }

/-- The unary flag rule of `neg` and `not` (R123). -/
def unaryFlags (result : Byte) : Flags :=
  { z := result = 0, c := false, n := 0x80 ≤ result.toNat, v := false }

/-- The Effect field that writes all four flags (R84, R86). -/
def Flags.all (f : Flags) : FlagUpdate :=
  { z := some f.z, c := some f.c, n := some f.n, v := some f.v }

/-- `cond_holds(cc, Z, C, N, V)` (R150). -/
def condHolds (cc : Cond) (f : Flags) : Bool :=
  match cc with
  | .al => true
  | .eq => f.z
  | .ne => !f.z
  | .gt => !f.z && f.n == f.v
  | .lt => f.n != f.v
  | .ge => f.n == f.v
  | .le => f.z || f.n != f.v
  | .hi => f.c && !f.z
  | .lo => !f.c
  | .hs => f.c
  | .ls => !f.c || f.z
  | .pl => !f.n
  | .mi => f.n
  | .vs => f.v
  | .vc => !f.v

end Sys2Proof.Machine
end

