-- ==== Sys2Proof/Machine/Arith.lean ====
section
/-!
DEFINITION. Arithmetic and logic: `add`, `sub`, `and`, `or`, `xor`, `cmp`, `neg`, `not`
(spec/42_arith_logic.md R120 to R132), and the template of the ten three-operand operations (R122).
-/

namespace Sys2Proof.Machine

/-- The template of R122 for a raw result `f A B`: `A` is `x[a]`, `B` the second input of the flag rule. -/
def threeOperand (f : Byte → Byte → Nat) (dest a : RegId) (b : Byte) (p : Proc) : Effect :=
  let c := f (p.reg a) b
  { reg := some (dest, lowByte c), flags := some (flagsFrom (p.reg a) b c).all }

/-- `F_add(A, B) = A + B` (R124), also of `sub` and `cmp` after negation (R125, R129). -/
def rawAdd (a b : Byte) : Nat := a.toNat + b.toNat

/-- `F_and(A, B) = A & B` (R126). -/
def rawAnd (a b : Byte) : Nat := a.toNat &&& b.toNat

/-- `F_or(A, B) = A | B` (R127). -/
def rawOr (a b : Byte) : Nat := a.toNat ||| b.toNat

/-- `F_xor(A, B) = A ^ B` (R128). -/
def rawXor (a b : Byte) : Nat := a.toNat ^^^ b.toNat

/-- `add dest,a,b`: the Effect of R124. -/
def addEffect (dest a : RegId) (b : Value) (p : Proc) : Effect :=
  threeOperand rawAdd dest a (p.value b) p

/-- `sub dest,a,b`: the Effect of R125, "b is two's-complemented first". -/
def subEffect (dest a : RegId) (b : Value) (p : Proc) : Effect :=
  threeOperand rawAdd dest a (neg2c (p.value b)) p

/-- `and dest,a,b`: the Effect of R126. -/
def andEffect (dest a : RegId) (b : Value) (p : Proc) : Effect :=
  threeOperand rawAnd dest a (p.value b) p

/-- `or dest,a,b`: the Effect of R127. -/
def orEffect (dest a : RegId) (b : Value) (p : Proc) : Effect :=
  threeOperand rawOr dest a (p.value b) p

/-- `xor dest,a,b`: the Effect of R128. -/
def xorEffect (dest a : RegId) (b : Value) (p : Proc) : Effect :=
  threeOperand rawXor dest a (p.value b) p

/-- `cmp a,b`: the Effect of R129, the flags of `x[a] + neg2c(value(b))` and nothing else. -/
def cmpEffect (a : RegId) (b : Value) (p : Proc) : Effect :=
  let B := neg2c (p.value b)
  { flags := some (flagsFrom (p.reg a) B (rawAdd (p.reg a) B)).all }

/-- The Effect of a unary operation with result `r` (R130, R131), flags by R123. -/
def unaryEffect (dest : RegId) (r : Byte) : Effect :=
  { reg := some (dest, r), flags := some (unaryFlags r).all }

/-- `neg dest,src`: the Effect of R130. -/
def negEffect (dest : RegId) (src : Value) (p : Proc) : Effect :=
  unaryEffect dest (neg2c (p.value src))

/-- `not dest,src`: the Effect of R131. -/
def notEffect (dest : RegId) (src : Value) (p : Proc) : Effect :=
  unaryEffect dest (~~~ (p.value src))

/-- `add dest,a,rb` (R124). -/
def execAddReg (dest a rb : RegId) (s : State) : Host.Outcome State Fault Refusal :=
  s.perform (.ok (addEffect dest a (.reg rb) s.proc))

/-- `add dest,a,imm8` (R124). -/
def execAddImm (dest a : RegId) (k : Byte) (s : State) : Host.Outcome State Fault Refusal :=
  s.perform (.ok (addEffect dest a (.imm k) s.proc))

/-- `sub dest,a,rb` (R125). -/
def execSubReg (dest a rb : RegId) (s : State) : Host.Outcome State Fault Refusal :=
  s.perform (.ok (subEffect dest a (.reg rb) s.proc))

/-- `sub dest,a,imm8` (R125). -/
def execSubImm (dest a : RegId) (k : Byte) (s : State) : Host.Outcome State Fault Refusal :=
  s.perform (.ok (subEffect dest a (.imm k) s.proc))

/-- `and dest,a,rb` (R126). -/
def execAndReg (dest a rb : RegId) (s : State) : Host.Outcome State Fault Refusal :=
  s.perform (.ok (andEffect dest a (.reg rb) s.proc))

/-- `and dest,a,imm8` (R126). -/
def execAndImm (dest a : RegId) (k : Byte) (s : State) : Host.Outcome State Fault Refusal :=
  s.perform (.ok (andEffect dest a (.imm k) s.proc))

/-- `or dest,a,rb` (R127). -/
def execOrReg (dest a rb : RegId) (s : State) : Host.Outcome State Fault Refusal :=
  s.perform (.ok (orEffect dest a (.reg rb) s.proc))

/-- `or dest,a,imm8` (R127). -/
def execOrImm (dest a : RegId) (k : Byte) (s : State) : Host.Outcome State Fault Refusal :=
  s.perform (.ok (orEffect dest a (.imm k) s.proc))

/-- `xor dest,a,rb` (R128). -/
def execXorReg (dest a rb : RegId) (s : State) : Host.Outcome State Fault Refusal :=
  s.perform (.ok (xorEffect dest a (.reg rb) s.proc))

/-- `xor dest,a,imm8` (R128). -/
def execXorImm (dest a : RegId) (k : Byte) (s : State) : Host.Outcome State Fault Refusal :=
  s.perform (.ok (xorEffect dest a (.imm k) s.proc))

/-- `cmp a,rb` (R129). -/
def execCmpReg (a rb : RegId) (s : State) : Host.Outcome State Fault Refusal :=
  s.perform (.ok (cmpEffect a (.reg rb) s.proc))

/-- `cmp a,imm8` (R129). -/
def execCmpImm (a : RegId) (k : Byte) (s : State) : Host.Outcome State Fault Refusal :=
  s.perform (.ok (cmpEffect a (.imm k) s.proc))

/-- `neg dest,rb` (R130). -/
def execNegReg (dest rb : RegId) (s : State) : Host.Outcome State Fault Refusal :=
  s.perform (.ok (negEffect dest (.reg rb) s.proc))

/-- `neg dest,imm8` (R130). -/
def execNegImm (dest : RegId) (k : Byte) (s : State) : Host.Outcome State Fault Refusal :=
  s.perform (.ok (negEffect dest (.imm k) s.proc))

/-- `not dest,rb` (R131). -/
def execNotReg (dest rb : RegId) (s : State) : Host.Outcome State Fault Refusal :=
  s.perform (.ok (notEffect dest (.reg rb) s.proc))

/-- `not dest,imm8` (R131). -/
def execNotImm (dest : RegId) (k : Byte) (s : State) : Host.Outcome State Fault Refusal :=
  s.perform (.ok (notEffect dest (.imm k) s.proc))

end Sys2Proof.Machine
end

