-- ==== Sys2Proof/Machine/Control.lean ====
section
/-!
DEFINITION. Control transfer: `b{cond}`, `call`, `ret` (spec/44_control_transfer.md R150 to R156).
-/

namespace Sys2Proof.Machine

/-- `b{cond} label`: taken, the jump to `L(label)`, which fails where the label is absent; not taken, the
empty Effect, and the label is not looked up (R151, the spec's decision D11). -/
def branchEffect (cc : Cond) (label : Label) (labels : List (Label × Pc)) (p : Proc) :
    Except Fault Effect :=
  if condHolds cc p.flags then
    match lookupLabel labels label with
    | .error f => .error f
    | .ok t => .ok { jump := some t }
  else .ok {}

/-- `call label`: the jump to `L(label)` and a push of `pc + 1` (R152). -/
def callEffect (label : Label) (labels : List (Label × Pc)) (p : Proc) : Except Fault Effect :=
  match lookupLabel labels label with
  | .error f => .error f
  | .ok t => .ok { jump := some t, stack := some (.push (p.pc + 1)) }

/-- `ret`: the jump to the top and a pop; the empty Effect on an empty stack (R153). -/
def retEffect (p : Proc) : Effect :=
  match top p.cs with
  | some t => { jump := some t, stack := some .pop }
  | none => {}

/-- `bal label` (R151). -/
def execBal (label : Label) (s : State) : Host.Outcome State Fault Refusal :=
  s.perform (branchEffect .al label s.labels s.proc)

/-- `beq label` (R151). -/
def execBeq (label : Label) (s : State) : Host.Outcome State Fault Refusal :=
  s.perform (branchEffect .eq label s.labels s.proc)

/-- `bne label` (R151). -/
def execBne (label : Label) (s : State) : Host.Outcome State Fault Refusal :=
  s.perform (branchEffect .ne label s.labels s.proc)

/-- `bgt label` (R151). -/
def execBgt (label : Label) (s : State) : Host.Outcome State Fault Refusal :=
  s.perform (branchEffect .gt label s.labels s.proc)

/-- `blt label` (R151). -/
def execBlt (label : Label) (s : State) : Host.Outcome State Fault Refusal :=
  s.perform (branchEffect .lt label s.labels s.proc)

/-- `bge label` (R151). -/
def execBge (label : Label) (s : State) : Host.Outcome State Fault Refusal :=
  s.perform (branchEffect .ge label s.labels s.proc)

/-- `ble label` (R151). -/
def execBle (label : Label) (s : State) : Host.Outcome State Fault Refusal :=
  s.perform (branchEffect .le label s.labels s.proc)

/-- `bhi label` (R151). -/
def execBhi (label : Label) (s : State) : Host.Outcome State Fault Refusal :=
  s.perform (branchEffect .hi label s.labels s.proc)

/-- `blo label` (R151). -/
def execBlo (label : Label) (s : State) : Host.Outcome State Fault Refusal :=
  s.perform (branchEffect .lo label s.labels s.proc)

/-- `bhs label` (R151). -/
def execBhs (label : Label) (s : State) : Host.Outcome State Fault Refusal :=
  s.perform (branchEffect .hs label s.labels s.proc)

/-- `bls label` (R151). -/
def execBls (label : Label) (s : State) : Host.Outcome State Fault Refusal :=
  s.perform (branchEffect .ls label s.labels s.proc)

/-- `bpl label` (R151). -/
def execBpl (label : Label) (s : State) : Host.Outcome State Fault Refusal :=
  s.perform (branchEffect .pl label s.labels s.proc)

/-- `bmi label` (R151). -/
def execBmi (label : Label) (s : State) : Host.Outcome State Fault Refusal :=
  s.perform (branchEffect .mi label s.labels s.proc)

/-- `bvs label` (R151). -/
def execBvs (label : Label) (s : State) : Host.Outcome State Fault Refusal :=
  s.perform (branchEffect .vs label s.labels s.proc)

/-- `bvc label` (R151). -/
def execBvc (label : Label) (s : State) : Host.Outcome State Fault Refusal :=
  s.perform (branchEffect .vc label s.labels s.proc)

/-- `call label` (R152). -/
def execCall (label : Label) (s : State) : Host.Outcome State Fault Refusal :=
  s.perform (callEffect label s.labels s.proc)

/-- `ret` (R153). -/
def execRet (s : State) : Host.Outcome State Fault Refusal :=
  s.perform (.ok (retEffect s.proc))

end Sys2Proof.Machine
end

