-- ==== Sys2Proof/Machine/LoadStore.lean ====
section
/-!
DEFINITION. Load, store and move: `ldr`, `str`, `mov` (spec/41_load_store_move.md R110 to R113). Each
instruction is its Effect (R82) and one meaning per row of the opcode table.
-/

namespace Sys2Proof.Machine

/-- `ldr dest,[addr]`: the Effect of R110; the read is checked in the execute stage (R31). -/
def ldrEffect (dest : RegId) (addr : Address) (p : Proc) : Except Fault Effect :=
  match memRead p.mem (p.resolve addr).toNat with
  | .error f => .error f
  | .ok v => .ok { reg := some (dest, v) }

/-- `str [addr],src`: the Effect of R111; the write is checked at commit (R32). -/
def strEffect (addr : Address) (src : RegId) (p : Proc) : Effect :=
  { write := some ((p.resolve addr).toNat, p.reg src) }

/-- `mov dest,src`: the Effect of R112. -/
def movEffect (dest : RegId) (src : Value) (p : Proc) : Effect :=
  { reg := some (dest, p.value src) }

/-- `ldr dest,[rb]` (R110). -/
def execLdrInd (dest rb : RegId) (s : State) : Host.Outcome State Fault Refusal :=
  s.perform (ldrEffect dest (.ind rb) s.proc)

/-- `ldr dest,[imm8]` (R110). -/
def execLdrAbs (dest : RegId) (k : Byte) (s : State) : Host.Outcome State Fault Refusal :=
  s.perform (ldrEffect dest (.abs k) s.proc)

/-- `str [rb],src` (R111). -/
def execStrInd (rb src : RegId) (s : State) : Host.Outcome State Fault Refusal :=
  s.perform (.ok (strEffect (.ind rb) src s.proc))

/-- `str [imm8],src` (R111). -/
def execStrAbs (k : Byte) (src : RegId) (s : State) : Host.Outcome State Fault Refusal :=
  s.perform (.ok (strEffect (.abs k) src s.proc))

/-- `mov dest,rb` (R112). -/
def execMovReg (dest rb : RegId) (s : State) : Host.Outcome State Fault Refusal :=
  s.perform (.ok (movEffect dest (.reg rb) s.proc))

/-- `mov dest,imm8` (R112). -/
def execMovImm (dest : RegId) (k : Byte) (s : State) : Host.Outcome State Fault Refusal :=
  s.perform (.ok (movEffect dest (.imm k) s.proc))

end Sys2Proof.Machine
end

