-- ==== Sys2Proof/Machine/Shift.lean ====
section
/-!
DEFINITION. Shifts and rotates: `lsl`, `lsr`, `asr`, `rol`, `ror` (spec/43_shift_rotate.md R140 to
R146). The count `n` is the whole byte `value(b)`; the shifts do not reduce it (R140, the spec's decision
D9), the rotates do. The raw result is already within 8 bits (R146, the spec's decision D10).
-/

namespace Sys2Proof.Machine

/-- `(x[a] << n) & 0xFF` (R141). -/
def rawLsl (a n : Byte) : Nat := (a.toNat <<< n.toNat) &&& 0xFF

/-- `(x[a] >> n) & 0xFF` (R142). -/
def rawLsr (a n : Byte) : Nat := (a.toNat >>> n.toNat) &&& 0xFF

/-- `sext_8(v)`: the byte as a two's-complement integer (R143). -/
def sext8 (v : Byte) : Int := if v.toNat < 0x80 then (v.toNat : Int) else (v.toNat : Int) - 256

/-- `floor(sext_8(x[a]) / 2^n) mod 256` (R143); Lean's integer `/` by a positive number rounds down. -/
def rawAsr (a n : Byte) : Nat := (sext8 a / (2 : Int) ^ n.toNat % 256).toNat

/-- `((a << k) | (a >> (8 - k))) & 0xFF`, the byte rotated left by `k` from 0 to 7 (R144). -/
def rotateLeft (a : Byte) (k : Nat) : Nat := ((a.toNat <<< k) ||| (a.toNat >>> (8 - k))) &&& 0xFF

/-- `rol`: left by `n mod 8` (R144). -/
def rawRol (a n : Byte) : Nat := rotateLeft a (n.toNat % 8)

/-- `ror`: left by `(-n) mod 8` (R145). -/
def rawRor (a n : Byte) : Nat := rotateLeft a ((8 - n.toNat % 8) % 8)

/-- `lsl dest,a,b`: the Effect of R141. -/
def lslEffect (dest a : RegId) (b : Value) (p : Proc) : Effect :=
  threeOperand rawLsl dest a (p.value b) p

/-- `lsr dest,a,b`: the Effect of R142. -/
def lsrEffect (dest a : RegId) (b : Value) (p : Proc) : Effect :=
  threeOperand rawLsr dest a (p.value b) p

/-- `asr dest,a,b`: the Effect of R143. -/
def asrEffect (dest a : RegId) (b : Value) (p : Proc) : Effect :=
  threeOperand rawAsr dest a (p.value b) p

/-- `rol dest,a,b`: the Effect of R144. -/
def rolEffect (dest a : RegId) (b : Value) (p : Proc) : Effect :=
  threeOperand rawRol dest a (p.value b) p

/-- `ror dest,a,b`: the Effect of R145. -/
def rorEffect (dest a : RegId) (b : Value) (p : Proc) : Effect :=
  threeOperand rawRor dest a (p.value b) p

/-- `lsl dest,a,rb` (R141). -/
def execLslReg (dest a rb : RegId) (s : State) : Host.Outcome State Fault Refusal :=
  s.perform (.ok (lslEffect dest a (.reg rb) s.proc))

/-- `lsl dest,a,imm8` (R141). -/
def execLslImm (dest a : RegId) (k : Byte) (s : State) : Host.Outcome State Fault Refusal :=
  s.perform (.ok (lslEffect dest a (.imm k) s.proc))

/-- `lsr dest,a,rb` (R142). -/
def execLsrReg (dest a rb : RegId) (s : State) : Host.Outcome State Fault Refusal :=
  s.perform (.ok (lsrEffect dest a (.reg rb) s.proc))

/-- `lsr dest,a,imm8` (R142). -/
def execLsrImm (dest a : RegId) (k : Byte) (s : State) : Host.Outcome State Fault Refusal :=
  s.perform (.ok (lsrEffect dest a (.imm k) s.proc))

/-- `asr dest,a,rb` (R143). -/
def execAsrReg (dest a rb : RegId) (s : State) : Host.Outcome State Fault Refusal :=
  s.perform (.ok (asrEffect dest a (.reg rb) s.proc))

/-- `asr dest,a,imm8` (R143). -/
def execAsrImm (dest a : RegId) (k : Byte) (s : State) : Host.Outcome State Fault Refusal :=
  s.perform (.ok (asrEffect dest a (.imm k) s.proc))

/-- `rol dest,a,rb` (R144). -/
def execRolReg (dest a rb : RegId) (s : State) : Host.Outcome State Fault Refusal :=
  s.perform (.ok (rolEffect dest a (.reg rb) s.proc))

/-- `rol dest,a,imm8` (R144). -/
def execRolImm (dest a : RegId) (k : Byte) (s : State) : Host.Outcome State Fault Refusal :=
  s.perform (.ok (rolEffect dest a (.imm k) s.proc))

/-- `ror dest,a,rb` (R145). -/
def execRorReg (dest a rb : RegId) (s : State) : Host.Outcome State Fault Refusal :=
  s.perform (.ok (rorEffect dest a (.reg rb) s.proc))

/-- `ror dest,a,imm8` (R145). -/
def execRorImm (dest a : RegId) (k : Byte) (s : State) : Host.Outcome State Fault Refusal :=
  s.perform (.ok (rorEffect dest a (.imm k) s.proc))

end Sys2Proof.Machine
end

