-- ==== Sys2Proof/Machine/System.lean ====
section
/-!
DEFINITION. System instructions: `hlt`, `nop` (spec/45_system.md R170 to R172).
-/

namespace Sys2Proof.Machine

/-- `hlt`: the Effect of R170; it has no jump, so the pc advances at commit (R88). -/
def hltEffect : Effect := { halt := some true }

/-- `nop`: the empty Effect (R171). -/
def nopEffect : Effect := {}

/-- `hlt` (R170). -/
def execHlt (s : State) : Host.Outcome State Fault Refusal :=
  s.perform (.ok hltEffect)

/-- `nop` (R171). -/
def execNop (s : State) : Host.Outcome State Fault Refusal :=
  s.perform (.ok nopEffect)

end Sys2Proof.Machine
end

