-- ==== Sys2Proof/Machine/Dispatch.lean ====
section
/-!
DEFINITION. Dispatch: each instruction to its meaning (spec/40_step_and_effect.md R82).
-/

namespace Sys2Proof.Machine

/-- An instruction's effect on the state: execute, then commit (R81 steps 5 to 8, R82). -/
def exec (i : Instr) (s : State) : Host.Outcome State Fault Refusal :=
  match i with
  | .ldrInd dest rb => Sys2Proof.Machine.execLdrInd dest rb s
  | .ldrAbs dest k => Sys2Proof.Machine.execLdrAbs dest k s
  | .strInd rb src => Sys2Proof.Machine.execStrInd rb src s
  | .strAbs k src => Sys2Proof.Machine.execStrAbs k src s
  | .movReg dest rb => Sys2Proof.Machine.execMovReg dest rb s
  | .movImm dest k => Sys2Proof.Machine.execMovImm dest k s
  | .bal label => Sys2Proof.Machine.execBal label s
  | .beq label => Sys2Proof.Machine.execBeq label s
  | .bne label => Sys2Proof.Machine.execBne label s
  | .bgt label => Sys2Proof.Machine.execBgt label s
  | .blt label => Sys2Proof.Machine.execBlt label s
  | .bge label => Sys2Proof.Machine.execBge label s
  | .ble label => Sys2Proof.Machine.execBle label s
  | .bhi label => Sys2Proof.Machine.execBhi label s
  | .blo label => Sys2Proof.Machine.execBlo label s
  | .bhs label => Sys2Proof.Machine.execBhs label s
  | .bls label => Sys2Proof.Machine.execBls label s
  | .bpl label => Sys2Proof.Machine.execBpl label s
  | .bmi label => Sys2Proof.Machine.execBmi label s
  | .bvs label => Sys2Proof.Machine.execBvs label s
  | .bvc label => Sys2Proof.Machine.execBvc label s
  | .call label => Sys2Proof.Machine.execCall label s
  | .ret => Sys2Proof.Machine.execRet s
  | .hlt => Sys2Proof.Machine.execHlt s
  | .nop => Sys2Proof.Machine.execNop s
  | .cmpReg a rb => Sys2Proof.Machine.execCmpReg a rb s
  | .cmpImm a k => Sys2Proof.Machine.execCmpImm a k s
  | .negReg dest rb => Sys2Proof.Machine.execNegReg dest rb s
  | .negImm dest k => Sys2Proof.Machine.execNegImm dest k s
  | .notReg dest rb => Sys2Proof.Machine.execNotReg dest rb s
  | .notImm dest k => Sys2Proof.Machine.execNotImm dest k s
  | .addReg dest a rb => Sys2Proof.Machine.execAddReg dest a rb s
  | .addImm dest a k => Sys2Proof.Machine.execAddImm dest a k s
  | .subReg dest a rb => Sys2Proof.Machine.execSubReg dest a rb s
  | .subImm dest a k => Sys2Proof.Machine.execSubImm dest a k s
  | .andReg dest a rb => Sys2Proof.Machine.execAndReg dest a rb s
  | .andImm dest a k => Sys2Proof.Machine.execAndImm dest a k s
  | .orReg dest a rb => Sys2Proof.Machine.execOrReg dest a rb s
  | .orImm dest a k => Sys2Proof.Machine.execOrImm dest a k s
  | .xorReg dest a rb => Sys2Proof.Machine.execXorReg dest a rb s
  | .xorImm dest a k => Sys2Proof.Machine.execXorImm dest a k s
  | .lslReg dest a rb => Sys2Proof.Machine.execLslReg dest a rb s
  | .lslImm dest a k => Sys2Proof.Machine.execLslImm dest a k s
  | .lsrReg dest a rb => Sys2Proof.Machine.execLsrReg dest a rb s
  | .lsrImm dest a k => Sys2Proof.Machine.execLsrImm dest a k s
  | .asrReg dest a rb => Sys2Proof.Machine.execAsrReg dest a rb s
  | .asrImm dest a k => Sys2Proof.Machine.execAsrImm dest a k s
  | .rolReg dest a rb => Sys2Proof.Machine.execRolReg dest a rb s
  | .rolImm dest a k => Sys2Proof.Machine.execRolImm dest a k s
  | .rorReg dest a rb => Sys2Proof.Machine.execRorReg dest a rb s
  | .rorImm dest a k => Sys2Proof.Machine.execRorImm dest a k s

end Sys2Proof.Machine
end

