-- ==== Sys2Proof/Machine/Step.lean ====
section
/-!
DEFINITION. The step cycle (spec/40_step_and_effect.md R81) and how one word is placed where the step
fetches.
-/

namespace Sys2Proof.Machine

/-- One step (R81): the halted test, the pc range test, fetch, decode, and the instruction's `exec`,
which executes, commits and records. -/
def step (s : State) : Host.Outcome State Fault Refusal :=
  if s.proc.halted then .fault .stoppedHalted
  else
    match s.fetch with
    | none => .fault .stoppedPcOutOfRange
    | some w =>
      match decode w with
      | .error _ => .fault (.unsupportedInstruction w)
      | .ok i => exec i s

/-- The instruction sequence with `w` at index `pc`; places before it that hold nothing get
`Config.paddingWord`. -/
def placeWord (code : List Word) (pc : Pc) (w : Word) : List Word :=
  code.take pc ++ List.replicate (pc - code.length) Config.paddingWord ++ [w] ++ code.drop (pc + 1)

/-- The label table with an entry for the label that `w` names, if it names one that is absent: a Program
is "fully resolved before execution starts" (R25, R204). The new entry is the word's own index. -/
def resolveLabel (labels : List (Label × Pc)) (pc : Pc) (w : Word) : List (Label × Pc) :=
  match decode w with
  | .error _ => labels
  | .ok i =>
    match i.label? with
    | none => labels
    | some l =>
      match lookupLabel labels l with
      | .ok _ => labels
      | .error _ => labels ++ [(l, pc)]

/-- `s` with the word placed where the next step fetches, so that `step` runs exactly it. It stands for
the host's load of a Program (R203): the word at `I[pc]`, its label resolved, the core not halted
(DESIGN CHOICE, notes/assumptions/3.md). -/
def State.withFetchWord (s : State) (nbits w : Nat) : State :=
  let word : Word := BitVec.ofNat 32 (w % 2 ^ nbits)
  { s with
    proc := { s.proc with halted := false }
    code := placeWord s.code s.proc.pc word
    labels := resolveLabel s.labels s.proc.pc word }

end Sys2Proof.Machine
end

