-- ==== Sys2Proof/Machine/Execute.lean ====
section
/-!
DEFINITION. The execute stage as the host's operation `instructionEffect` (spec/40_step_and_effect.md
R80, R82): the Effect an instruction causes, or its failure. It reads the state and the label table and
changes nothing.
-/

namespace Sys2Proof.Machine

/-- `Execute(S, L, ins)` (R82). -/
def instructionEffect (labels : List (Label × Pc)) (p : Proc) (i : Instr) : Except Fault Effect :=
  match i with
  | .ldrInd dest rb => ldrEffect dest (.ind rb) p
  | .ldrAbs dest k => ldrEffect dest (.abs k) p
  | .strInd rb src => .ok (strEffect (.ind rb) src p)
  | .strAbs k src => .ok (strEffect (.abs k) src p)
  | .movReg dest rb => .ok (movEffect dest (.reg rb) p)
  | .movImm dest k => .ok (movEffect dest (.imm k) p)
  | .bal label => branchEffect .al label labels p
  | .beq label => branchEffect .eq label labels p
  | .bne label => branchEffect .ne label labels p
  | .bgt label => branchEffect .gt label labels p
  | .blt label => branchEffect .lt label labels p
  | .bge label => branchEffect .ge label labels p
  | .ble label => branchEffect .le label labels p
  | .bhi label => branchEffect .hi label labels p
  | .blo label => branchEffect .lo label labels p
  | .bhs label => branchEffect .hs label labels p
  | .bls label => branchEffect .ls label labels p
  | .bpl label => branchEffect .pl label labels p
  | .bmi label => branchEffect .mi label labels p
  | .bvs label => branchEffect .vs label labels p
  | .bvc label => branchEffect .vc label labels p
  | .call label => callEffect label labels p
  | .ret => .ok (retEffect p)
  | .hlt => .ok hltEffect
  | .nop => .ok nopEffect
  | .cmpReg a rb => .ok (cmpEffect a (.reg rb) p)
  | .cmpImm a k => .ok (cmpEffect a (.imm k) p)
  | .negReg dest rb => .ok (negEffect dest (.reg rb) p)
  | .negImm dest k => .ok (negEffect dest (.imm k) p)
  | .notReg dest rb => .ok (notEffect dest (.reg rb) p)
  | .notImm dest k => .ok (notEffect dest (.imm k) p)
  | .addReg dest a rb => .ok (addEffect dest a (.reg rb) p)
  | .addImm dest a k => .ok (addEffect dest a (.imm k) p)
  | .subReg dest a rb => .ok (subEffect dest a (.reg rb) p)
  | .subImm dest a k => .ok (subEffect dest a (.imm k) p)
  | .andReg dest a rb => .ok (andEffect dest a (.reg rb) p)
  | .andImm dest a k => .ok (andEffect dest a (.imm k) p)
  | .orReg dest a rb => .ok (orEffect dest a (.reg rb) p)
  | .orImm dest a k => .ok (orEffect dest a (.imm k) p)
  | .xorReg dest a rb => .ok (xorEffect dest a (.reg rb) p)
  | .xorImm dest a k => .ok (xorEffect dest a (.imm k) p)
  | .lslReg dest a rb => .ok (lslEffect dest a (.reg rb) p)
  | .lslImm dest a k => .ok (lslEffect dest a (.imm k) p)
  | .lsrReg dest a rb => .ok (lsrEffect dest a (.reg rb) p)
  | .lsrImm dest a k => .ok (lsrEffect dest a (.imm k) p)
  | .asrReg dest a rb => .ok (asrEffect dest a (.reg rb) p)
  | .asrImm dest a k => .ok (asrEffect dest a (.imm k) p)
  | .rolReg dest a rb => .ok (rolEffect dest a (.reg rb) p)
  | .rolImm dest a k => .ok (rolEffect dest a (.imm k) p)
  | .rorReg dest a rb => .ok (rorEffect dest a (.reg rb) p)
  | .rorImm dest a k => .ok (rorEffect dest a (.imm k) p)

end Sys2Proof.Machine
end

