-- ==== Sys2Proof/Machine/HostOps.lean ====
section
/-!
DEFINITION. The host's other operations (spec/40_step_and_effect.md R80): a step request with its report
(R187), running to completion (R101), undo (R103), commit from outside, reset (R201, R202) and loading a
Program (R203). `step` is Step.lean's, `apply` and `invert` are Effect.lean's, `instructionEffect` is
Execute.lean's. None of them is an instruction: they act between steps.
-/

namespace Sys2Proof.Machine

/-- The numeric status of a report (R180, R187, the spec's decision D13). -/
def statusCode : Option Fault → Nat
  | none => 0
  | some (.outOfRange _) => 1
  | some (.unknownLabel _) => 2
  | some (.unsupportedInstruction _) => 3
  | some .stackOverflow => 4
  | some .stoppedHalted => 5
  | some .stoppedPcOutOfRange => 6

/-- A step request: the next state, or the same state with the stop or failure reported (R81, R183,
R187). -/
def State.request (s : State) : State :=
  match step s with
  | .next t => t
  | .fault f => { s with report := some f }
  | .refused _ => s

/-- Running to completion within `fuel` steps (R101): the last state, and the reason once there is one. -/
def State.run : Nat → State → State × Option Fault
  | 0, s => (s, none)
  | fuel + 1, s =>
    match step s with
    | .next t => State.run fuel t
    | .fault f => ({ s with report := some f }, some f)
    | .refused _ => (s, none)

/-- Undo one step (R103): nothing on an empty history; otherwise the last pair is removed and its inverse
Effect committed, and the report is cleared. A pair that no step recorded may fail to invert or to
commit: then the state stays as it was (DESIGN CHOICE, notes/assumptions/8.md). -/
def State.undo (s : State) : Host.Outcome State Fault Refusal :=
  match s.history.getLast? with
  | none => .next s
  | some (p, e) =>
    match invert p e with
    | .error f => .fault f
    | .ok e' =>
      match apply s.params.stackDepth s.proc e' with
      | .error f => .fault f
      | .ok q => .next { s with proc := q, history := s.history.dropLast, report := none }

/-- The host commits an Effect of its own (R80, R191), or commits a recorded one again (redo, R103). It
looks at neither `halted` nor the history (R80), records nothing (R102: one entry per successful step)
and leaves the report, which is of the last step request (R187; DEDUCED, notes/assumptions/14.md). -/
def State.hostCommit (s : State) (e : Effect) : Host.Outcome State Fault Refusal :=
  match apply s.params.stackDepth s.proc e with
  | .error f => .fault f
  | .ok q => .next { s with proc := q }

/-- Reset as the host asks for it, between steps and from any state: the Program and the realisation's
parameters stay (R201, R202; of the parameters DEDUCED, notes/assumptions/16.md). -/
def State.hostReset (s : State) : State :=
  { State.reset with code := s.code, labels := s.labels, params := s.params }

/-- The host supplies the Program (R203). -/
def State.loadProgram (s : State) (code : List Word) (labels : List (Label × Pc)) : State :=
  { s with code := code, labels := labels }

end Sys2Proof.Machine
end

