-- ==== Sys2Proof/WellFormed.lean ====
section
/-!
DEFINITION. Well-formedness. An instruction's operands are bounded by their types (spec/91_not_in_source.md
N15: register ids `Fin 8`, immediates bytes, labels 16 bits), so what can be ill-formed is a Program: the
premise of spec/70_reset_and_hazards.md R204, which a claim may take and the core does not check.
-/

namespace Sys2Proof

/-- The word is one of the instructions (R204 (a)). -/
def wordSupported (w : Word) : Bool :=
  match decode w with
  | .ok _ => true
  | .error _ => false

/-- The label table has an entry for the label (R25). -/
def labelPresent (labels : List (Label × Pc)) (l : Label) : Bool := labels.any fun e => e.1 == l

/-- The label the word's instruction names, if it names one, has an entry (R204 (b)). -/
def wordResolved (labels : List (Label × Pc)) (w : Word) : Bool :=
  match decode w with
  | .ok i => i.label?.all (labelPresent labels)
  | .error _ => true

/-- No label has two entries: the table is a map (R25). -/
def labelsDistinct : List (Label × Pc) → Bool
  | [] => true
  | e :: rest => !labelPresent rest e.1 && labelsDistinct rest

/-- A well-formed Program: every word is supported, every label named is in the table, and the table is a
map (R204, R25). -/
def programWf (code : List Word) (labels : List (Label × Pc)) : Bool :=
  code.all wordSupported && code.all (wordResolved labels) && labelsDistinct labels

end Sys2Proof
end

