-- ==== Sys2Proof/Safety.lean ====
section
/-!
DEFINITION. The terms claims use: the state invariant, what an instruction keeps (its frame), the tables
of what each instruction writes (spec/10_state.md R11, R17), how a word is written as a number
(spec/30_encoding.md R55 to R60), and what a safe run is.
-/

namespace Sys2Proof.Machine

/-! ## Invariants -/

/-- The state invariant of R23, of which the types leave one point: data memory is in canonical form,
inside the address space. -/
def Proc.wf (p : Proc) : Prop := p.mem.wf = true

/-- A call stack that a finite `STACK_DEPTH` holds (R5, R185). -/
def StackWithin (depth : Option Nat) (cs : List Pc) : Prop := ∀ d, depth = some d → cs.length ≤ d

/-- An undo history that a finite `HIST_DEPTH` holds (R5, R102). -/
def HistoryWithin (depth : Option Nat) (history : List (Proc × Effect)) : Prop :=
  ∀ d, depth = some d → history.length ≤ d

/-- Committing `e` on `p` gives `q`, from a state the step cycle executes in (R81, R102). -/
def Link (depth : Option Nat) (p : Proc) (e : Effect) (q : Proc) : Prop :=
  p.wf ∧ StackWithin depth p.cs ∧ p.halted = false ∧ apply depth p e = .ok q

/-- The state a history that ends in `q` starts from. -/
def historyStart : List (Proc × Effect) → Proc → Proc
  | [], q => q
  | (p, _) :: _, _ => p

/-- Each pair of the history leads to the next pair's state and the last pair to `q` (R102). -/
def HistoryChain (depth : Option Nat) : List (Proc × Effect) → Proc → Prop
  | [], _ => True
  | (p, e) :: rest, q => Link depth p e (historyStart rest q) ∧ HistoryChain depth rest q

/-- The invariant every step keeps. -/
structure State.Inv (s : State) : Prop where
  wf      : s.proc.wf
  stack   : StackWithin s.params.stackDepth s.proc.cs
  bounded : HistoryWithin s.params.histDepth s.history
  chain   : HistoryChain s.params.stackDepth s.history s.proc

/-- The premise under which a `width`-bit program counter is indistinguishable (R14), with the pc values
the machine holds: all are at most `2^width - 1`. -/
structure State.PcFits (width : Nat) (s : State) : Prop where
  code   : s.code.length ≤ 2 ^ width - 1
  labels : ∀ e ∈ s.labels, e.2 ≤ 2 ^ width - 1
  pc     : s.proc.pc ≤ 2 ^ width - 1
  cs     : ∀ v ∈ s.proc.cs, v ≤ 2 ^ width - 1

/-! ## Frames -/

/-- Every register but those named holds what it held. -/
def KeepsRegsExcept (dests : List RegId) (s t : State) : Prop :=
  ∀ r, r ∉ dests → t.proc.reg r = s.proc.reg r

/-- Every byte of data memory but those at the addresses named reads as before. -/
def KeepsMemoryExcept (addrs : List Nat) (s t : State) : Prop :=
  ∀ a, a ∉ addrs → t.proc.mem.read a = s.proc.mem.read a

/-- The four flags hold what they held. -/
def KeepsFlags (s t : State) : Prop := t.proc.flags = s.proc.flags

/-- The call stack holds what it held. -/
def KeepsStack (s t : State) : Prop := t.proc.cs = s.proc.cs

/-- The halted flag holds what it held. -/
def KeepsHalted (s t : State) : Prop := t.proc.halted = s.proc.halted

/-- The Program and the realisation's parameters are what they were (R24, R25). -/
def KeepsProgram (s t : State) : Prop :=
  t.code = s.code ∧ t.labels = s.labels ∧ t.params = s.params

/-- The default advance (R14, R88). -/
def Advances (s t : State) : Prop := t.proc.pc = s.proc.pc + 1

/-- The Effect the execute stage answers for an instruction in a state (R82). -/
def effectOf (i : Instr) (s : State) : Except Fault Effect := instructionEffect s.labels s.proc i

/-- The instruction completes, `x[dest]` is `v`, the flags are `f`, the pc advances, and everything else
is as it was; its Effect is `(reg, flags)` and nothing more (R122). -/
def CompletesWith (i : Instr) (s : State) (dest : RegId) (v : Byte) (f : Flags) : Prop :=
  effectOf i s = .ok { reg := some (dest, v), flags := some f.all } ∧
  ∃ t, exec i s = .next t ∧ t.proc.reg dest = v ∧ t.proc.flags = f ∧ Advances s t ∧
    KeepsRegsExcept [dest] s t ∧ KeepsMemoryExcept [] s t ∧ KeepsStack s t ∧ KeepsHalted s t ∧
    KeepsProgram s t

/-- The instruction completes, `x[dest]` is `v`, the pc advances, and everything else is as it was, the
flags too; its Effect is `reg` and nothing more (R110, R112, R113). -/
def MovesInto (i : Instr) (s : State) (dest : RegId) (v : Byte) : Prop :=
  effectOf i s = .ok { reg := some (dest, v) } ∧
  ∃ t, exec i s = .next t ∧ t.proc.reg dest = v ∧ KeepsFlags s t ∧ Advances s t ∧
    KeepsRegsExcept [dest] s t ∧ KeepsMemoryExcept [] s t ∧ KeepsStack s t ∧ KeepsHalted s t ∧
    KeepsProgram s t

/-- Everything but the pc, the call stack and the halted flag is as it was. -/
def KeepsData (s t : State) : Prop :=
  KeepsRegsExcept [] s t ∧ KeepsMemoryExcept [] s t ∧ KeepsFlags s t ∧ KeepsProgram s t

/-! ## Flags as claims write them -/

/-- The flags of `x - y` as R125 works them out (its corner cases, derived there): `Z` equality, `C` "no
borrow" but false for `y = 0`, `V` signed overflow but `x >= 0x80` for `y = 0x80`. -/
def differenceFlags (x y : Byte) : Flags where
  z := x = y
  c := y ≠ 0 ∧ y.toNat ≤ x.toNat
  n := 128 ≤ (x - y).toNat
  v := if y = 0x80 then 128 ≤ x.toNat else ¬ (-128 ≤ x.toInt - y.toInt ∧ x.toInt - y.toInt ≤ 127)

/-- The flags of a shift or rotate of `x` by the count `n` with the given result (R146; its `C = 0` is the
spec's decision D10): the count takes part in `V` as if it were an addend. -/
def shiftFlags (x n result : Byte) : Flags where
  z := result = 0
  c := false
  n := 128 ≤ result.toNat
  v := (n.toNat < 128 ∧ x.toNat < 128 ∧ 128 ≤ result.toNat) ∨
       (128 ≤ n.toNat ∧ 128 ≤ x.toNat ∧ result.toNat < 128)

/-! ## What each instruction writes -/

/-- The register an instruction writes (the table of R11). -/
def destReg : Instr → Option RegId
  | .ldrInd d _ | .ldrAbs d _ | .movReg d _ | .movImm d _ => some d
  | .negReg d _ | .negImm d _ | .notReg d _ | .notImm d _ => some d
  | .addReg d _ _ | .addImm d _ _ => some d
  | .subReg d _ _ | .subImm d _ _ => some d
  | .andReg d _ _ | .andImm d _ _ => some d
  | .orReg d _ _ | .orImm d _ _ => some d
  | .xorReg d _ _ | .xorImm d _ _ => some d
  | .lslReg d _ _ | .lslImm d _ _ => some d
  | .lsrReg d _ _ | .lsrImm d _ _ => some d
  | .asrReg d _ _ | .asrImm d _ _ => some d
  | .rolReg d _ _ | .rolImm d _ _ => some d
  | .rorReg d _ _ | .rorImm d _ _ => some d
  | .strInd _ _ | .strAbs _ _ | .cmpReg _ _ | .cmpImm _ _ => none
  | .bal _ | .beq _ | .bne _ | .bgt _ | .blt _ => none
  | .bge _ | .ble _ | .bhi _ | .blo _ | .bhs _ => none
  | .bls _ | .bpl _ | .bmi _ | .bvs _ | .bvc _ => none
  | .call _ | .ret | .hlt | .nop => none

/-- The instructions that write the flags, always all four (the table of R17). -/
def writesFlags : Instr → Bool
  | .cmpReg _ _ | .cmpImm _ _ | .negReg _ _ | .negImm _ _ | .notReg _ _ | .notImm _ _ => true
  | .addReg _ _ _ | .addImm _ _ _ => true
  | .subReg _ _ _ | .subImm _ _ _ => true
  | .andReg _ _ _ | .andImm _ _ _ => true
  | .orReg _ _ _ | .orImm _ _ _ => true
  | .xorReg _ _ _ | .xorImm _ _ _ => true
  | .lslReg _ _ _ | .lslImm _ _ _ => true
  | .lsrReg _ _ _ | .lsrImm _ _ _ => true
  | .asrReg _ _ _ | .asrImm _ _ _ => true
  | .rolReg _ _ _ | .rolImm _ _ _ => true
  | .rorReg _ _ _ | .rorImm _ _ _ => true
  | .ldrInd _ _ | .ldrAbs _ _ | .strInd _ _ | .strAbs _ _ | .movReg _ _ | .movImm _ _ => false
  | .bal _ | .beq _ | .bne _ | .bgt _ | .blt _ => false
  | .bge _ | .ble _ | .bhi _ | .blo _ | .bhs _ => false
  | .bls _ | .bpl _ | .bmi _ | .bvs _ | .bvc _ => false
  | .call _ | .ret | .hlt | .nop => false

/-- The instruction is a `str` (R111), the only one that writes data memory (R22, R36). -/
def IsStr (i : Instr) : Prop := ∃ addr src, i = Instr.str addr src

/-- The instruction is a `b{cond}` (R151). -/
def IsBranch (i : Instr) : Prop := ∃ cc l, i = Instr.b cc l

/-! ## Words as numbers -/

/-- The word of `i` has these field values (R55). -/
def EncodesAs (i : Instr) (op cond rd ra operand : Nat) : Prop :=
  (encode i).toNat = op * 2 ^ 27 + cond * 2 ^ 23 + rd * 2 ^ 20 + ra * 2 ^ 17 + operand

/-- `i` and `k` of a Value operand as one number, bits 16 down to 0 (R58). -/
def valueNumber : Value → Nat
  | .reg r => r.val
  | .imm k => 2 ^ 16 + k.toNat

/-- `i` and `k` of an Address operand as one number, bits 16 down to 0 (R58). -/
def addressNumber : Address → Nat
  | .ind r => r.val
  | .abs k => 2 ^ 16 + k.toNat

/-- The condition numbers of R57. -/
def condNumber : Cond → Nat
  | .al => 0 | .eq => 1 | .ne => 2 | .gt => 3 | .lt => 4 | .ge => 5 | .le => 6 | .hi => 7
  | .lo => 8 | .hs => 9 | .ls => 10 | .pl => 11 | .mi => 12 | .vs => 13 | .vc => 14

/-- The `match` and `mask` of an instruction's row in the opcode map of spec/30_encoding.md ("The opcode
map in full"), copied from there. -/
def mapRow : Instr → Word × Word
  | .ldrInd _ _ => (0x00000000, 0xFF8FFFF8)
  | .ldrAbs _ _ => (0x00010000, 0xFF8FFF00)
  | .strInd _ _ => (0x08000000, 0xFFF1FFF8)
  | .strAbs _ _ => (0x08010000, 0xFFF1FF00)
  | .movReg _ _ => (0x10000000, 0xFF8FFFF8)
  | .movImm _ _ => (0x10010000, 0xFF8FFF00)
  | .bal _ => (0x18000000, 0xFFFF0000)
  | .beq _ => (0x18800000, 0xFFFF0000)
  | .bne _ => (0x19000000, 0xFFFF0000)
  | .bgt _ => (0x19800000, 0xFFFF0000)
  | .blt _ => (0x1A000000, 0xFFFF0000)
  | .bge _ => (0x1A800000, 0xFFFF0000)
  | .ble _ => (0x1B000000, 0xFFFF0000)
  | .bhi _ => (0x1B800000, 0xFFFF0000)
  | .blo _ => (0x1C000000, 0xFFFF0000)
  | .bhs _ => (0x1C800000, 0xFFFF0000)
  | .bls _ => (0x1D000000, 0xFFFF0000)
  | .bpl _ => (0x1D800000, 0xFFFF0000)
  | .bmi _ => (0x1E000000, 0xFFFF0000)
  | .bvs _ => (0x1E800000, 0xFFFF0000)
  | .bvc _ => (0x1F000000, 0xFFFF0000)
  | .call _ => (0x20000000, 0xFFFF0000)
  | .ret => (0x28000000, 0xFFFFFFFF)
  | .hlt => (0x30000000, 0xFFFFFFFF)
  | .nop => (0x38000000, 0xFFFFFFFF)
  | .cmpReg _ _ => (0x40000000, 0xFFF1FFF8)
  | .cmpImm _ _ => (0x40010000, 0xFFF1FF00)
  | .negReg _ _ => (0x48000000, 0xFF8FFFF8)
  | .negImm _ _ => (0x48010000, 0xFF8FFF00)
  | .notReg _ _ => (0x50000000, 0xFF8FFFF8)
  | .notImm _ _ => (0x50010000, 0xFF8FFF00)
  | .addReg _ _ _ => (0x58000000, 0xFF81FFF8)
  | .addImm _ _ _ => (0x58010000, 0xFF81FF00)
  | .subReg _ _ _ => (0x60000000, 0xFF81FFF8)
  | .subImm _ _ _ => (0x60010000, 0xFF81FF00)
  | .andReg _ _ _ => (0x68000000, 0xFF81FFF8)
  | .andImm _ _ _ => (0x68010000, 0xFF81FF00)
  | .orReg _ _ _ => (0x70000000, 0xFF81FFF8)
  | .orImm _ _ _ => (0x70010000, 0xFF81FF00)
  | .xorReg _ _ _ => (0x78000000, 0xFF81FFF8)
  | .xorImm _ _ _ => (0x78010000, 0xFF81FF00)
  | .lslReg _ _ _ => (0x80000000, 0xFF81FFF8)
  | .lslImm _ _ _ => (0x80010000, 0xFF81FF00)
  | .lsrReg _ _ _ => (0x88000000, 0xFF81FFF8)
  | .lsrImm _ _ _ => (0x88010000, 0xFF81FF00)
  | .asrReg _ _ _ => (0x90000000, 0xFF81FFF8)
  | .asrImm _ _ _ => (0x90010000, 0xFF81FF00)
  | .rolReg _ _ _ => (0x98000000, 0xFF81FFF8)
  | .rolImm _ _ _ => (0x98010000, 0xFF81FF00)
  | .rorReg _ _ _ => (0xA0000000, 0xFF81FFF8)
  | .rorImm _ _ _ => (0xA0010000, 0xFF81FF00)

/-! ## Safe runs -/

/-- The fault is a stop condition, not one of the failures (R180, R186). -/
def IsStop (f : Fault) : Prop := f = .stoppedHalted ∨ f = .stoppedPcOutOfRange

/-- A safe step: a next state, or a stop condition; no failure and no refusal (R204, R210). -/
def SafeStep (s : State) : Prop :=
  (∃ t, step s = .next t) ∨ ∃ f, step s = .fault f ∧ IsStop f

end Sys2Proof.Machine
end

