-- ==== Sys2Proof/Certificates/Slice0/Obligations.lean ====
section
/-!
DEFINITION. The statements for the provers, each a `Prop` and none proved here. A docstring names the rule of
spec/ a statement formalises, and says so where it rests on a decision or an inference the spec marks as its
own or on a choice of this model. The shapes `Instr.add`, `Instr.ldr`, ... are those of R52: each covers its
register and its immediate constructor, and `Instr.b` the fifteen branch constructors.
-/

open Sys2Proof Sys2Proof.Machine

/-! ## The instruction word -/

/-- Worked words of spec/30_encoding.md, one of each format, decode as the spec says (the words are the spec's
own decision, D1 to D5). -/
def Obligations.WorkedWordsDecode : Prop :=
  decode 0x58320002 = .ok (.addReg 3 1 2) ∧ decode 0x98330002 = .ok (.rolImm 3 1 2) ∧
  decode 0x00210032 = .ok (.ldrAbs 2 50) ∧ decode 0x00200001 = .ok (.ldrInd 2 1) ∧
  decode 0x080900FF = .ok (.strAbs 255 4) ∧ decode 0x08080005 = .ok (.strInd 5 4) ∧
  decode 0x10710080 = .ok (.movImm 7 128) ∧ decode 0x4003000A = .ok (.cmpImm 1 10) ∧
  decode 0x19000007 = .ok (.bne 7) ∧ decode 0x20000001 = .ok (.call 1) ∧
  decode 0x28000000 = .ok .ret ∧ decode 0x30000000 = .ok .hlt ∧ decode 0x38000000 = .ok .nop ∧
  decode 0x00000000 = .ok (.ldrInd 0 0)

/-- `Decode(Encode(ins)) = ins` for every instruction, every operand at every value (R66, derived there from
the decided word). -/
def Obligations.DecodeOfEncodeIsTheInstruction : Prop := ∀ i : Instr, decode (encode i) = .ok i

/-- `Encode(Decode(W)) = W` for every supported word (R66, derived there from the decided word). -/
def Obligations.EncodeOfDecodeIsTheWord : Prop :=
  ∀ (w : Word) (i : Instr), decode w = .ok i → encode i = w

/-- A word is a row's instruction exactly when `(W & mask) == match`, for the 51 rows of the opcode map of
spec/30_encoding.md (R56 to R58, R60, R64). The map rests on the instruction word the spec decided (D1 to D5). -/
def Obligations.OpcodeMapRowsAreExact : Prop :=
  ∀ (i : Instr) (w : Word),
    w &&& (mapRow i).2 = (mapRow i).1 ↔ ∃ j, decode w = .ok j ∧ mapRow j = mapRow i

/-- Every word from 0xA8000000 upward (R62) and every word from 0x1F800000 to 0x1F80FFFF (R63) is refused by
the decoder: that they are unsupported is the spec's decision D5, the name of the refusal is this model's choice,
notes/assumptions/18.md. -/
def Obligations.ReservedNumbersAreRefused : Prop :=
  ∀ w : Word,
    (0xA8000000 ≤ w.toNat → decode w = .error .reservedOpcode) ∧
    (0x1F800000 ≤ w.toNat ∧ w.toNat ≤ 0x1F80FFFF → decode w = .error .reservedCondition)

/-- A non-zero bit in a field the format does not use, or in a must-be-zero part of `k`, makes a word of a
defined opcode unsupported (R64, the spec's decision D5). -/
def Obligations.UnusedBitsAreRefused : Prop :=
  ∀ f : Fields, (∃ i, f.decode = .ok i) →
    (f.op ≠ 3 → f.cond = 0) ∧
    (f.op ∈ [1, 3, 4, 5, 6, 7, 8] → f.rd = 0) ∧
    (f.op ∈ [0, 2, 3, 4, 5, 6, 7, 9, 10] → f.ra = 0) ∧
    (f.op ∈ [3, 4, 5, 6, 7] → f.i = 0) ∧
    (f.op ∈ [5, 6, 7] → f.k = 0) ∧
    (f.op ∉ [3, 4, 5, 6, 7] → f.i = 1 → f.k.toNat < 256) ∧
    (f.op ∉ [3, 4, 5, 6, 7] → f.i = 0 → f.k.toNat < 8)

/-! ## The step cycle -/

/-- A step of a running core whose pc indexes a word that decodes to `i` is `exec i` (R81, R82). The step adds
nothing around `exec`: the advance of the pc, the commit and the history are the commit's. -/
def Obligations.StepRunsTheDecodedInstruction : Prop :=
  ∀ (s : State) (w : Word) (i : Instr),
    s.proc.halted = false → s.code[s.proc.pc]? = some w → decode w = .ok i → step s = exec i s

/-- The two stop conditions, the halted test first, and no other case stops so (R186, the spec's decision
D12). -/
def Obligations.StepStopsWhenHaltedOrOutOfRange : Prop :=
  ∀ s : State,
    (step s = .fault .stoppedHalted ↔ s.proc.halted = true) ∧
    (step s = .fault .stoppedPcOutOfRange ↔ s.proc.halted = false ∧ s.code.length ≤ s.proc.pc)

/-- Each failure of a step with the exact condition that raises it, in the order of R189: unsupported word
(R184), absent label of a `call` or of a taken branch (R182), a `call` on a full finite stack (R185), and
`OutOfRange` never (R44). R185 and R189 are the spec's own decision and inference. -/
def Obligations.StepFailsExactlyWhen : Prop :=
  ∀ s : State,
    (∀ w, step s = .fault (.unsupportedInstruction w) ↔
      s.proc.halted = false ∧ s.code[s.proc.pc]? = some w ∧ ∀ i, decode w ≠ .ok i) ∧
    (∀ l, step s = .fault (.unknownLabel l) ↔
      s.proc.halted = false ∧ (∀ e ∈ s.labels, e.1 ≠ l) ∧
      ∃ w i, s.code[s.proc.pc]? = some w ∧ decode w = .ok i ∧
        (i = .call l ∨ ∃ cc, i = Instr.b cc l ∧ condHolds cc s.proc.flags = true)) ∧
    (step s = .fault .stackOverflow ↔
      s.proc.halted = false ∧
      (∃ w l, s.code[s.proc.pc]? = some w ∧ decode w = .ok (.call l) ∧ ∃ e ∈ s.labels, e.1 = l) ∧
      ∃ d, s.params.stackDepth = some d ∧ d ≤ s.proc.cs.length) ∧
    (∀ a, step s ≠ .fault (.outOfRange a))

/-- A step is never refused: every instruction has its meaning (R52, R82). -/
def Obligations.StepIsNeverRefused : Prop := ∀ (s : State) (r : Refusal), step s ≠ .refused r

/-- With a well-formed Program and the unbounded call stack, every step of a running core inside the program
succeeds: no run can end in `UnsupportedInstruction` or `UnknownLabel` (R204, derived there). -/
def Obligations.WellFormedProgramSteps : Prop :=
  ∀ s : State, programWf s.code s.labels = true → s.params.stackDepth = none →
    SafeStep s ∧ (s.proc.halted = false → s.proc.pc < s.code.length → ∃ t, step s = .next t)

/-- A failed or stopped step request leaves everything but the report as it was, and the same request again
gives the same report (R183, R187; the repetition is derived there). That `State.request` and not `step` writes the
report is this model's choice, notes/assumptions/5.md. -/
def Obligations.FailedRequestChangesNothingAndRepeats : Prop :=
  ∀ (s : State) (f : Fault), step s = .fault f →
    s.request = { s with report := some f } ∧ step s.request = .fault f ∧
    s.request.request = s.request

/-- Running to completion ends in a state whose next step gives the reason it reports (R101, R210). That
`State.run` and not `step` writes the report is this model's choice, notes/assumptions/5.md. -/
def Obligations.RunEndsAtTheReportedFault : Prop :=
  ∀ (fuel : Nat) (s t : State) (f : Fault), State.run fuel s = (t, some f) →
    step t = .fault f ∧ t.report = some f

/-- A `withFetchWord` state runs the word it places: the harness of this model, notes/assumptions/3.md. -/
def Obligations.PlacedWordRunsNext : Prop :=
  ∀ (s : State) (nbits w : Nat) (i : Instr),
    decode (BitVec.ofNat 32 (w % 2 ^ nbits)) = .ok i →
    step (s.withFetchWord nbits w) = exec i (s.withFetchWord nbits w) ∧
    (∀ l, i.label? = some l → ∃ e ∈ (s.withFetchWord nbits w).labels, e.1 = l)

/-! ## Reset and invariants -/

/-- The reset Processor State: every register and memory byte 0, every flag false, pc 0, call stack empty, not
halted (R200). -/
def Obligations.ResetIsAllZeroNotHalted : Prop :=
  (∀ r, State.reset.proc.reg r = 0) ∧ (∀ a, State.reset.proc.mem.read a = 0) ∧
  State.reset.proc.flags = { z := false, c := false, n := false, v := false } ∧
  State.reset.proc.pc = 0 ∧ State.reset.proc.cs = [] ∧ State.reset.proc.halted = false

/-- A reset the host asks for gives the reset Processor State from any state (R202), an empty history and the
report "running", and leaves the Program (R201, the spec's decision D16); so does the first reset. -/
def Obligations.HostResetClearsStateKeepsProgram : Prop :=
  (∀ s : State, s.hostReset.proc = State.reset.proc ∧ s.hostReset.history = [] ∧
    statusCode s.hostReset.report = 0 ∧ s.hostReset.code = s.code ∧ s.hostReset.labels = s.labels) ∧
  State.reset.history = [] ∧ statusCode State.reset.report = 0

/-- The reset state meets the invariant of `StepKeepsTheInvariant` (R23, R200), whose canonical form of memory is
this model's choice, notes/assumptions/10.md. -/
def Obligations.ResetMeetsTheInvariant : Prop := State.reset.Inv

/-- Every step keeps the invariant: memory stays inside the address space (R23) and in the canonical form that is
this model's choice, notes/assumptions/10.md; a finite call stack and history stay within their depth (R5); and the
history stays a chain of commits that leads to the present state (R102). That a full finite history loses its oldest
pairs, so that the chain stays whole, is this model's choice, notes/assumptions/6.md. -/
def Obligations.StepKeepsTheInvariant : Prop :=
  ∀ s t : State, s.Inv → step s = .next t → t.Inv

/-- Every step keeps all pc values the machine holds within `2^width - 1`, where the program's length and its
label values are: the premise of R14 under which a `width`-bit pc cannot be told from an unbounded one
(derived there). -/
def Obligations.StepKeepsPcValuesInWidth : Prop :=
  ∀ (width : Nat) (s t : State), s.PcFits width → step s = .next t → t.PcFits width

/-! ## What instructions may write: whole-machine rules -/

/-- An instruction leaves every register but its destination (the table of R11) as it was. -/
def Obligations.OnlyTheDestinationRegisterChanges : Prop :=
  ∀ (i : Instr) (s t : State), exec i s = .next t →
    ∀ r, destReg i ≠ some r → t.proc.reg r = s.proc.reg r

/-- An instruction outside the table of R17 leaves the flags as they were. -/
def Obligations.OnlyFlagWritersChangeFlags : Prop :=
  ∀ (i : Instr) (s t : State), exec i s = .next t → writesFlags i = false → KeepsFlags s t

/-- Data memory is changed by `str` only (R22, R36). -/
def Obligations.OnlyStrChangesMemory : Prop :=
  ∀ (i : Instr) (s t : State), exec i s = .next t → ¬ IsStr i → KeepsMemoryExcept [] s t

/-- The call stack is changed by `call` and `ret` only, and the only value ever pushed is `pc + 1` (R21). -/
def Obligations.OnlyCallAndRetChangeTheStack : Prop :=
  ∀ (i : Instr) (s t : State), exec i s = .next t →
    t.proc.cs = s.proc.cs ∨
    ((∃ l, i = .call l) ∧ t.proc.cs = s.proc.cs ++ [s.proc.pc + 1]) ∨
    (i = .ret ∧ t.proc.cs = s.proc.cs.dropLast)

/-- An instruction that is no branch, `call` or `ret` advances the pc by one, `hlt` too (R14). -/
def Obligations.PcAdvancesUnlessTransferred : Prop :=
  ∀ (i : Instr) (s t : State), exec i s = .next t → ¬ IsBranch i → (∀ l, i ≠ .call l) → i ≠ .ret →
    Advances s t

/-- `hlt` sets `halted`; every other instruction leaves it (R19). -/
def Obligations.OnlyHltHalts : Prop :=
  ∀ (i : Instr) (s t : State), exec i s = .next t →
    (i = .hlt → t.proc.halted = true) ∧ (i ≠ .hlt → KeepsHalted s t)

/-- No instruction changes the Program or the parameters (R24, R25, R42). -/
def Obligations.ProgramIsReadOnly : Prop :=
  ∀ (i : Instr) (s t : State), exec i s = .next t → KeepsProgram s t

/-- A successful step records its pre-state and its Effect and reports "running" (R102, R187). That a full
finite history loses its oldest entries is this model's choice, notes/assumptions/6.md. -/
def Obligations.EveryStepIsRecorded : Prop :=
  ∀ (i : Instr) (s t : State), exec i s = .next t →
    ∃ e, effectOf i s = .ok e ∧ apply s.params.stackDepth s.proc e = .ok t.proc ∧
      (s.params.histDepth = none → t.history = s.history ++ [(s.proc, e)]) ∧
      (∀ d, s.params.histDepth = some d →
        t.history = (s.history ++ [(s.proc, e)]).drop (s.history.length + 1 - d)) ∧
      t.report = none

/-- No instruction can read the history or the report (R28, R187): two states that differ in them only step
alike, to the same Processor State or the same fault. -/
def Obligations.HistoryAndReportAreInvisible : Prop :=
  ∀ (s : State) (history : List (Proc × Effect)) (report : Option Fault),
    (∀ t, step s = .next t →
      ∃ u, step { s with history := history, report := report } = .next u ∧ u.proc = t.proc) ∧
    (∀ f, step s = .fault f → step { s with history := history, report := report } = .fault f)

/-! ## Commit and undo -/

/-- `Apply`, field by field (R86 to R90): flags merged, one register, one byte, the jump or the default
advance, push and pop, halt. -/
def Obligations.ApplyCommitsEveryField : Prop :=
  ∀ (p : Proc) (e : Effect), p.wf → (∀ a v, e.write = some (a, v) → a < 256) →
    ∃ q, apply none p e = .ok q ∧
      q.flags.z = ((e.flags.bind FlagUpdate.z).getD p.flags.z) ∧
      q.flags.c = ((e.flags.bind FlagUpdate.c).getD p.flags.c) ∧
      q.flags.n = ((e.flags.bind FlagUpdate.n).getD p.flags.n) ∧
      q.flags.v = ((e.flags.bind FlagUpdate.v).getD p.flags.v) ∧
      (∀ r, q.reg r = match e.reg with
        | some (r', v) => if r = r' then v else p.reg r
        | none => p.reg r) ∧
      (∀ a, q.mem.read a = match e.write with
        | some (a', v) => if a = a' then v else p.mem.read a
        | none => p.mem.read a) ∧
      (e.jump = none → q.pc = p.pc + 1) ∧ (∀ t, e.jump = some t → q.pc = t) ∧
      (e.stack = none → q.cs = p.cs) ∧ (∀ v, e.stack = some (.push v) → q.cs = p.cs ++ [v]) ∧
      (e.stack = some .pop → q.cs = p.cs.dropLast) ∧
      (e.halt = none → q.halted = p.halted) ∧ (∀ b, e.halt = some b → q.halted = b)

/-- `Apply` and `Invert` fail with `OutOfRange` on a write address of 256 or more, whatever else the Effect
holds (R87, R91; of `Invert` the spec's decision D19). Where the Effect also pushes onto a full finite stack, that
`Apply` reports `OutOfRange` and not `StackOverflow` is this model's choice, notes/assumptions/7.md. -/
def Obligations.WriteBeyondMemoryIsOutOfRange : Prop :=
  ∀ (depth : Option Nat) (p : Proc) (e : Effect) (a : Nat) (v : Byte),
    e.write = some (a, v) → 256 ≤ a →
    apply depth p e = .error (.outOfRange a) ∧ invert p e = .error (.outOfRange a)

/-- The bound rule for reads and writes alike, at every address: valid exactly from 0 to 255 (R31, R32, R33;
the spec's decision D6). -/
def Obligations.MemoryBoundIsExact : Prop :=
  ∀ (m : Memory) (a : Nat) (v : Byte),
    (a ≤ 255 → memRead m a = .ok (m.read a) ∧ memWrite m a v = .ok (m.write a v)) ∧
    (256 ≤ a → memRead m a = .error (.outOfRange a) ∧ memWrite m a v = .error (.outOfRange a))

/-- `Invert`, field by field (R93 to R98), for an Effect whose write address is valid. -/
def Obligations.InvertCapturesWhatIsOverwritten : Prop :=
  ∀ (p : Proc) (e : Effect), (∀ a v, e.write = some (a, v) → a < 256) →
    ∃ e', invert p e = .ok e' ∧
      (e.flags = none → e'.flags = none) ∧
      (∀ u, e.flags = some u → ∃ u', e'.flags = some u' ∧
        (u.z = none → u'.z = none) ∧ (∀ b, u.z = some b → u'.z = some p.flags.z) ∧
        (u.c = none → u'.c = none) ∧ (∀ b, u.c = some b → u'.c = some p.flags.c) ∧
        (u.n = none → u'.n = none) ∧ (∀ b, u.n = some b → u'.n = some p.flags.n) ∧
        (u.v = none → u'.v = none) ∧ (∀ b, u.v = some b → u'.v = some p.flags.v)) ∧
      (e.write = none → e'.write = none) ∧
      (∀ a v, e.write = some (a, v) → e'.write = some (a, p.mem.read a)) ∧
      (e.reg = none → e'.reg = none) ∧
      (∀ r v, e.reg = some (r, v) → e'.reg = some (r, p.reg r)) ∧
      e'.jump = some p.pc ∧
      (e.stack = none → e'.stack = none) ∧
      (∀ v, e.stack = some (.push v) → e'.stack = some .pop) ∧
      (e.stack = some .pop → p.cs = [] → e'.stack = none) ∧
      (∀ v cs, e.stack = some .pop → p.cs = cs ++ [v] → e'.stack = some (.push v)) ∧
      (e.halt = some true → e'.halt = some false) ∧ (e.halt ≠ some true → e'.halt = none)

/-- The round trip, with the exact condition under which it holds: for an Effect that commits on a state of
the invariant, undoing restores the state exactly when the Effect has no halt field or the state was not
halted (R99, R100, conflict C7; both derived there). -/
def Obligations.UndoRestoresExactlyUnlessHaltIsRedundant : Prop :=
  ∀ (depth : Option Nat) (p q : Proc) (e : Effect),
    p.wf → StackWithin depth p.cs → apply depth p e = .ok q →
    ((∃ e', invert p e = .ok e' ∧ apply depth q e' = .ok p) ↔ (e.halt = none ∨ p.halted = false))

/-- After any step from a state of the invariant, on a machine with a history, undo succeeds and gives back
the Processor State before the step, the Program as it was and the report cleared (R99, R103; R99 is derived there,
the report is the spec's decision D13, the history its decision D18). For a finite history that is full this rests
on the step keeping its newest pair, which is this model's choice, notes/assumptions/6.md. -/
def Obligations.UndoReversesAnyStep : Prop :=
  ∀ s t : State, s.Inv → s.params.histDepth ≠ some 0 → step s = .next t →
    ∃ u, t.undo = .next u ∧ u.proc = s.proc ∧ KeepsProgram s u ∧ u.report = none ∧
      u.history = t.history.dropLast

/-- Undo walks back the whole history: in a state of the invariant it never fails, it gives the last pair's
state, it keeps the invariant, and on an empty history it does nothing (R103). The invariant's
canonical form of memory is this model's choice, notes/assumptions/10.md. -/
def Obligations.UndoWalksBackTheHistory : Prop :=
  ∀ s : State, s.Inv →
    (s.history = [] → s.undo = .next s) ∧
    (∀ h p e, s.history = h ++ [(p, e)] →
      ∃ u, s.undo = .next u ∧ u.proc = p ∧ u.history = h ∧ u.Inv)

/-- Redo (R103, R196): after a step and its undo, committing the recorded Effect again gives the state after the
step. That it records nothing is this model's reading, notes/assumptions/14.md; that a full finite history holds the
step's pair at all is this model's choice, notes/assumptions/6.md. -/
def Obligations.RedoAfterUndoGivesTheStepAgain : Prop :=
  ∀ s t u : State, s.Inv → s.params.histDepth ≠ some 0 → step s = .next t → t.undo = .next u →
    ∃ e v, t.history.getLast? = some (s.proc, e) ∧ u.hostCommit e = .next v ∧ v.proc = t.proc ∧
      v.history = u.history

/-! ## Load, store, move -/

/-- `ldr dest,[addr]` in both address forms (R110, R113): its word, its Effect, the byte loaded, everything
else unchanged; it always completes. -/
def Obligations.LdrLoadsTheByte : Prop :=
  ∀ (dest : RegId) (addr : Address) (s : State),
    EncodesAs (Instr.ldr dest addr) 0 0 dest 0 (addressNumber addr) ∧
    MovesInto (Instr.ldr dest addr) s dest (s.proc.mem.read (s.proc.resolve addr).toNat)

/-- `str [addr],src` in both address forms (R111, R113): its word, its Effect, the byte at the resolved
address, every other byte and everything else unchanged; it always completes. -/
def Obligations.StrStoresTheByte : Prop :=
  ∀ (addr : Address) (src : RegId) (s : State), s.proc.wf →
    EncodesAs (Instr.str addr src) 1 0 0 src (addressNumber addr) ∧
    effectOf (Instr.str addr src) s
      = .ok { write := some ((s.proc.resolve addr).toNat, s.proc.reg src) } ∧
    ∃ t, exec (Instr.str addr src) s = .next t ∧
      t.proc.mem.read (s.proc.resolve addr).toNat = s.proc.reg src ∧
      KeepsMemoryExcept [(s.proc.resolve addr).toNat] s t ∧ KeepsRegsExcept [] s t ∧
      KeepsFlags s t ∧ Advances s t ∧ KeepsStack s t ∧ KeepsHalted s t ∧ KeepsProgram s t

/-- `mov dest,src` in both operand forms (R112, R113): its word, its Effect, the value, everything else
unchanged; it always completes. -/
def Obligations.MovCopiesTheValue : Prop :=
  ∀ (dest : RegId) (src : Value) (s : State),
    EncodesAs (Instr.mov dest src) 2 0 dest 0 (valueNumber src) ∧
    MovesInto (Instr.mov dest src) s dest (s.proc.value src)

/-! ## Arithmetic and logic -/

/-- The shared flag rule in plain arithmetic (R120). -/
def Obligations.SharedFlagRule : Prop :=
  ∀ (a b : Byte) (c : Nat),
    ((flagsFrom a b c).c = true ↔ 256 ≤ c) ∧ ((flagsFrom a b c).z = true ↔ c % 256 = 0) ∧
    ((flagsFrom a b c).n = true ↔ 128 ≤ c % 256) ∧
    ((flagsFrom a b c).v = true ↔
      (a.toNat < 128 ∧ b.toNat < 128 ∧ 128 ≤ c % 256) ∨
      (128 ≤ a.toNat ∧ 128 ≤ b.toNat ∧ c % 256 < 128))

/-- Two's-complement negation, with its two fixed points (R121). -/
def Obligations.NegationRule : Prop :=
  neg2c 0 = 0 ∧ neg2c 0x80 = 0x80 ∧
  ∀ x : Byte, (x ≠ 0 → (neg2c x).toNat = 256 - x.toNat) ∧ neg2c x = -x

/-- `add` (R124): the sum modulo 256, `C` the unsigned carry out, `V` exactly signed overflow (R132), every
other register, memory, the stack, `halted` and the Program unchanged; it always completes. -/
def Obligations.AddSumsWithCarryAndOverflow : Prop :=
  ∀ (dest a : RegId) (b : Value) (s : State),
    EncodesAs (Instr.add dest a b) 11 0 dest a (valueNumber b) ∧
    CompletesWith (Instr.add dest a b) s dest (s.proc.reg a + s.proc.value b)
      { z := s.proc.reg a + s.proc.value b = 0
        c := 256 ≤ (s.proc.reg a).toNat + (s.proc.value b).toNat
        n := 128 ≤ (s.proc.reg a + s.proc.value b).toNat
        v := ¬ (-128 ≤ (s.proc.reg a).toInt + (s.proc.value b).toInt ∧
              (s.proc.reg a).toInt + (s.proc.value b).toInt ≤ 127) }

/-- `sub` (R125): the difference modulo 256 and the flags of its corner cases, everything else unchanged; it
always completes. -/
def Obligations.SubSubtractsWithItsCornerCases : Prop :=
  ∀ (dest a : RegId) (b : Value) (s : State),
    EncodesAs (Instr.sub dest a b) 12 0 dest a (valueNumber b) ∧
    CompletesWith (Instr.sub dest a b) s dest (s.proc.reg a - s.proc.value b)
      (differenceFlags (s.proc.reg a) (s.proc.value b))

/-- `cmp` (R129): exactly the flags of `sub`, no register written, everything else unchanged; it always
completes. -/
def Obligations.CmpSetsTheFlagsOfSub : Prop :=
  ∀ (a : RegId) (b : Value) (s : State),
    EncodesAs (Instr.cmp a b) 8 0 0 a (valueNumber b) ∧
    effectOf (Instr.cmp a b) s
      = .ok { flags := some (differenceFlags (s.proc.reg a) (s.proc.value b)).all } ∧
    ∃ t, exec (Instr.cmp a b) s = .next t ∧
      t.proc.flags = differenceFlags (s.proc.reg a) (s.proc.value b) ∧ Advances s t ∧
      KeepsRegsExcept [] s t ∧ KeepsMemoryExcept [] s t ∧ KeepsStack s t ∧ KeepsHalted s t ∧
      KeepsProgram s t

/-- After `cmp a,b` the conditions order the operands (R150's reading, derived there): equality always,
unsigned for a non-zero second operand, signed for one other than 0x80; with a zero second operand `hs` and
`hi` are false and `lo` true (R125). -/
def Obligations.CmpThenConditionsOrderTheOperands : Prop :=
  ∀ (a : RegId) (b : Value) (s : State), ∃ t, exec (Instr.cmp a b) s = .next t ∧
    let x := s.proc.reg a
    let y := s.proc.value b
    let holds := fun cc => condHolds cc t.proc.flags = true
    (holds .eq ↔ x = y) ∧ (holds .ne ↔ x ≠ y) ∧
    (y ≠ 0 → (holds .hs ↔ y.toNat ≤ x.toNat) ∧ (holds .hi ↔ y.toNat < x.toNat) ∧
      (holds .lo ↔ x.toNat < y.toNat) ∧ (holds .ls ↔ x.toNat ≤ y.toNat)) ∧
    (y = 0 → ¬ holds .hs ∧ ¬ holds .hi ∧ holds .lo) ∧
    (y ≠ 0x80 → (holds .ge ↔ y.toInt ≤ x.toInt) ∧ (holds .gt ↔ y.toInt < x.toInt) ∧
      (holds .lt ↔ x.toInt < y.toInt) ∧ (holds .le ↔ x.toInt ≤ y.toInt))

/-- `and` and `or` (R126, R127): the bitwise result, `C` and `V` always clear (derived there), everything else
unchanged; both always complete. -/
def Obligations.AndOrClearCarryAndOverflow : Prop :=
  ∀ (dest a : RegId) (b : Value) (s : State),
    let x := s.proc.reg a
    let y := s.proc.value b
    EncodesAs (Instr.and dest a b) 13 0 dest a (valueNumber b) ∧
    CompletesWith (Instr.and dest a b) s dest (x &&& y)
      { z := x &&& y = 0, c := false, n := 128 ≤ (x &&& y).toNat, v := false } ∧
    EncodesAs (Instr.or dest a b) 14 0 dest a (valueNumber b) ∧
    CompletesWith (Instr.or dest a b) s dest (x ||| y)
      { z := x ||| y = 0, c := false, n := 128 ≤ (x ||| y).toNat, v := false }

/-- `xor` (R128): the bitwise result, `C` clear, `V` set exactly when both operands have bit 7 (derived
there), everything else unchanged; it always completes. -/
def Obligations.XorOverflowsOnTwoHighBits : Prop :=
  ∀ (dest a : RegId) (b : Value) (s : State),
    let x := s.proc.reg a
    let y := s.proc.value b
    EncodesAs (Instr.xor dest a b) 15 0 dest a (valueNumber b) ∧
    CompletesWith (Instr.xor dest a b) s dest (x ^^^ y)
      { z := x ^^^ y = 0, c := false, n := 128 ≤ (x ^^^ y).toNat
        v := 128 ≤ x.toNat ∧ 128 ≤ y.toNat }

/-- `neg` (R130, R123): two's-complement negation, `C` and `V` false, everything else unchanged; it always
completes. -/
def Obligations.NegNegates : Prop :=
  ∀ (dest : RegId) (src : Value) (s : State),
    EncodesAs (Instr.neg dest src) 9 0 dest 0 (valueNumber src) ∧
    CompletesWith (Instr.neg dest src) s dest (- s.proc.value src)
      { z := - s.proc.value src = 0, c := false, n := 128 ≤ (- s.proc.value src).toNat, v := false }

/-- `not` (R131, R123): `255 - value(src)`, `C` and `V` false, everything else unchanged; it always
completes. -/
def Obligations.NotComplements : Prop :=
  ∀ (dest : RegId) (src : Value) (s : State),
    EncodesAs (Instr.not dest src) 10 0 dest 0 (valueNumber src) ∧
    CompletesWith (Instr.not dest src) s dest (255 - s.proc.value src)
      { z := s.proc.value src = 255, c := false, n := (s.proc.value src).toNat < 128, v := false }

/-! ## Shifts and rotates -/

/-- `lsl` (R141): `x * 2^n` modulo 256 for every count from 0 to 255 (R140, the spec's decision D9), the flags
of R146, everything else unchanged; it always completes. -/
def Obligations.LslShiftsLeft : Prop :=
  ∀ (dest a : RegId) (b : Value) (s : State),
    let x := s.proc.reg a
    let n := s.proc.value b
    EncodesAs (Instr.lsl dest a b) 16 0 dest a (valueNumber b) ∧
    CompletesWith (Instr.lsl dest a b) s dest (x <<< n.toNat) (shiftFlags x n (x <<< n.toNat))

/-- `lsr` (R142): `x / 2^n` rounded down for every count (R140, the spec's decision D9), the flags of R146,
everything else unchanged; it always completes. -/
def Obligations.LsrShiftsRight : Prop :=
  ∀ (dest a : RegId) (b : Value) (s : State),
    let x := s.proc.reg a
    let n := s.proc.value b
    EncodesAs (Instr.lsr dest a b) 17 0 dest a (valueNumber b) ∧
    CompletesWith (Instr.lsr dest a b) s dest (x >>> n.toNat) (shiftFlags x n (x >>> n.toNat))

/-- `asr` (R143): bit 7 replicated into the vacated bits for every count (the spec's decision D9), `N` the
operand's bit 7 and `V` always clear, everything else unchanged; it always completes. -/
def Obligations.AsrKeepsTheSign : Prop :=
  ∀ (dest a : RegId) (b : Value) (s : State),
    let x := s.proc.reg a
    let n := s.proc.value b
    EncodesAs (Instr.asr dest a b) 18 0 dest a (valueNumber b) ∧
    CompletesWith (Instr.asr dest a b) s dest (x.sshiftRight n.toNat)
      { z := x.sshiftRight n.toNat = 0, c := false, n := 128 ≤ x.toNat, v := false }

/-- `rol` (R144): bit `j` moves to bit `(j + n) mod 8`, the flags of R146 with the unreduced count (derived
there), everything else unchanged; it always completes. -/
def Obligations.RolMovesEachBitUp : Prop :=
  ∀ (dest a : RegId) (b : Value) (s : State),
    let x := s.proc.reg a
    let n := s.proc.value b
    EncodesAs (Instr.rol dest a b) 19 0 dest a (valueNumber b) ∧
    ∃ r : Byte, (∀ j, j < 8 → r.getLsbD ((j + n.toNat) % 8) = x.getLsbD j) ∧
      CompletesWith (Instr.rol dest a b) s dest r (shiftFlags x n r)

/-- `ror` (R145): bit `j` moves to bit `(j - n) mod 8`, so bit `(j + n) mod 8` comes to bit `j`; the flags of
R146 with the unreduced count, everything else unchanged; it always completes. -/
def Obligations.RorMovesEachBitDown : Prop :=
  ∀ (dest a : RegId) (b : Value) (s : State),
    let x := s.proc.reg a
    let n := s.proc.value b
    EncodesAs (Instr.ror dest a b) 20 0 dest a (valueNumber b) ∧
    ∃ r : Byte, (∀ j, j < 8 → r.getLsbD j = x.getLsbD ((j + n.toNat) % 8)) ∧
      CompletesWith (Instr.ror dest a b) s dest r (shiftFlags x n r)

/-! ## Control transfer and system -/

/-- The fifteen condition formulas and the seven complementary pairs (R150). -/
def Obligations.ConditionFormulas : Prop :=
  ∀ f : Flags,
    let holds := fun cc => condHolds cc f = true
    holds .al ∧ (holds .eq ↔ f.z = true) ∧ (holds .ne ↔ f.z = false) ∧
    (holds .gt ↔ f.z = false ∧ f.n = f.v) ∧ (holds .lt ↔ f.n ≠ f.v) ∧ (holds .ge ↔ f.n = f.v) ∧
    (holds .le ↔ f.z = true ∨ f.n ≠ f.v) ∧ (holds .hi ↔ f.c = true ∧ f.z = false) ∧
    (holds .lo ↔ f.c = false) ∧ (holds .hs ↔ f.c = true) ∧ (holds .ls ↔ f.c = false ∨ f.z = true) ∧
    (holds .pl ↔ f.n = false) ∧ (holds .mi ↔ f.n = true) ∧ (holds .vs ↔ f.v = true) ∧
    (holds .vc ↔ f.v = false) ∧
    (holds .eq ↔ ¬ holds .ne) ∧ (holds .gt ↔ ¬ holds .le) ∧ (holds .lt ↔ ¬ holds .ge) ∧
    (holds .hi ↔ ¬ holds .ls) ∧ (holds .lo ↔ ¬ holds .hs) ∧ (holds .pl ↔ ¬ holds .mi) ∧
    (holds .vs ↔ ¬ holds .vc)

/-- `b{cond} label`, all fifteen (R151): taken, the pc becomes the label's value; not taken, the pc advances
and the label is not looked up (the spec's decision D11); nothing else changes. Its word (R57, R60). -/
def Obligations.BranchJumpsWhenTheConditionHolds : Prop :=
  ∀ (cc : Cond) (l : Label) (s : State),
    EncodesAs (Instr.b cc l) 3 (condNumber cc) 0 0 l.toNat ∧
    (∀ target, condHolds cc s.proc.flags = true → lookupLabel s.labels l = .ok target →
      effectOf (Instr.b cc l) s = .ok { jump := some target } ∧
      ∃ t, exec (Instr.b cc l) s = .next t ∧ t.proc.pc = target ∧ KeepsData s t ∧ KeepsStack s t ∧
        KeepsHalted s t) ∧
    (condHolds cc s.proc.flags = false →
      effectOf (Instr.b cc l) s = .ok {} ∧
      ∃ t, exec (Instr.b cc l) s = .next t ∧ Advances s t ∧ KeepsData s t ∧ KeepsStack s t ∧
        KeepsHalted s t) ∧
    (condHolds cc s.proc.flags = true → (∀ e ∈ s.labels, e.1 ≠ l) →
      exec (Instr.b cc l) s = .fault (.unknownLabel l))

/-- `call label` (R152): the pc becomes the label's value and `pc + 1` is the new top, nothing else changes;
an absent label fails with `UnknownLabel`, and with the label present a full finite stack with `StackOverflow`
(R185). Its word (R60). -/
def Obligations.CallPushesTheReturnPoint : Prop :=
  ∀ (l : Label) (s : State),
    EncodesAs (.call l) 4 0 0 0 l.toNat ∧
    (∀ target, lookupLabel s.labels l = .ok target →
      (∀ d, s.params.stackDepth = some d → s.proc.cs.length < d) →
      effectOf (.call l) s = .ok { jump := some target, stack := some (.push (s.proc.pc + 1)) } ∧
      ∃ t, exec (.call l) s = .next t ∧ t.proc.pc = target ∧
        t.proc.cs = s.proc.cs ++ [s.proc.pc + 1] ∧ KeepsData s t ∧ KeepsHalted s t) ∧
    ((∀ e ∈ s.labels, e.1 ≠ l) → exec (.call l) s = .fault (.unknownLabel l)) ∧
    ((∃ e ∈ s.labels, e.1 = l) → ∀ d, s.params.stackDepth = some d → d ≤ s.proc.cs.length →
      exec (.call l) s = .fault .stackOverflow)

/-- `ret` (R153): on a non-empty stack the pc becomes the top, which is popped; on an empty stack only the pc
advances; nothing else changes; it always completes. Its word (R60). -/
def Obligations.RetPopsTheReturnPoint : Prop :=
  EncodesAs .ret 5 0 0 0 0 ∧
  ∀ s : State,
    (∀ below target, s.proc.cs = below ++ [target] →
      effectOf .ret s = .ok { jump := some target, stack := some .pop } ∧
      ∃ t, exec .ret s = .next t ∧ t.proc.pc = target ∧ t.proc.cs = below ∧ KeepsData s t ∧
        KeepsHalted s t) ∧
    (s.proc.cs = [] →
      effectOf .ret s = .ok {} ∧
      ∃ t, exec .ret s = .next t ∧ Advances s t ∧ t.proc.cs = [] ∧ KeepsData s t ∧ KeepsHalted s t)

/-- Call/ret pairing: `call L`, then a `ret` in the state it gives, returns to the instruction after the call
with the call stack, the registers, the memory and the flags as before the call (R153, source §8). -/
def Obligations.RetAfterCallReturnsBehindIt : Prop :=
  ∀ (l : Label) (s : State) (target : Pc), lookupLabel s.labels l = .ok target →
    (∀ d, s.params.stackDepth = some d → s.proc.cs.length < d) →
    ∃ t u, exec (.call l) s = .next t ∧ exec .ret t = .next u ∧
      u.proc = { s.proc with pc := s.proc.pc + 1 }

/-- `hlt` and `nop` (R170, R171): `hlt` sets `halted`, `nop` does nothing; both advance the pc (of `hlt`
derived there) and change nothing else; both always complete. Their words (R60). -/
def Obligations.HltHaltsNopOnlyAdvances : Prop :=
  EncodesAs .hlt 6 0 0 0 0 ∧ EncodesAs .nop 7 0 0 0 0 ∧
  ∀ s : State,
    effectOf .hlt s = .ok { halt := some true } ∧
    (∃ t, exec .hlt s = .next t ∧ t.proc.halted = true ∧ Advances s t ∧ KeepsData s t ∧
      KeepsStack s t) ∧
    effectOf .nop s = .ok {} ∧
    (∃ t, exec .nop s = .next t ∧ Advances s t ∧ KeepsData s t ∧ KeepsStack s t ∧ KeepsHalted s t)
end

