-- ==== Sys2Proof/Laws/Decode.lean ====
section
/-!
SUPPORT. Laws of the instruction word: a word and its fields determine each other, a word as a number,
and the operand and condition fields.
-/

namespace Sys2Proof

/-- An appended bit vector as a number. -/
theorem toNat_append_eq_add {n m : Nat} (x : BitVec n) (y : BitVec m) :
    (x ++ y).toNat = x.toNat * 2 ^ m + y.toNat := by
  rw [BitVec.toNat_append, ← Nat.shiftLeft_add_eq_or_of_lt y.isLt, Nat.shiftLeft_eq]

/-- The word of these fields as a number (R55). -/
theorem Fields.toNat_toWord (f : Fields) :
    f.toWord.toNat = f.op.toNat * 2 ^ 27 + f.cond.toNat * 2 ^ 23 + f.rd.toNat * 2 ^ 20 +
      f.ra.toNat * 2 ^ 17 + f.i.toNat * 2 ^ 16 + f.k.toNat := by
  have h : f.toWord.toNat = (f.op ++ f.cond ++ f.rd ++ f.ra ++ f.i ++ f.k).toNat := rfl
  rw [h]
  simp only [toNat_append_eq_add]
  omega

/-- The fields of a word that was put together are the fields it was put together from. -/
@[simp] theorem Fields.ofWord_toWord (f : Fields) : Fields.ofWord f.toWord = f := by
  have h := f.toNat_toWord
  have h1 := f.op.isLt
  have h2 := f.cond.isLt
  have h3 := f.rd.isLt
  have h4 := f.ra.isLt
  have h5 := f.i.isLt
  have h6 := f.k.isLt
  obtain ⟨op, cond, rd, ra, i, k⟩ := f
  dsimp only at h h1 h2 h3 h4 h5 h6
  simp only [Fields.ofWord, Fields.mk.injEq]
  refine ⟨?_, ?_, ?_, ?_, ?_, ?_⟩ <;> apply BitVec.eq_of_toNat_eq <;>
    simp only [BitVec.extractLsb'_toNat, Nat.shiftRight_eq_div_pow, h] <;> omega

/-- A word is put together again from its fields. -/
@[simp] theorem Fields.toWord_ofWord (w : Word) : (Fields.ofWord w).toWord = w := by
  apply BitVec.eq_of_toNat_eq
  rw [Fields.toNat_toWord]
  have h := w.isLt
  simp only [Fields.ofWord, BitVec.extractLsb'_toNat, Nat.shiftRight_eq_div_pow]
  omega

@[simp] theorem decode_toWord (f : Fields) : decode f.toWord = f.decode := by simp [decode]

@[simp] theorem regOfField_fieldOfReg (r : RegId) : regOfField (fieldOfReg r) = r := by
  apply Fin.ext
  have h := r.isLt
  simp only [regOfField, fieldOfReg, BitVec.toNat_ofNat]
  omega

@[simp] theorem fieldOfReg_regOfField (b : BitVec 3) : fieldOfReg (regOfField b) = b := by
  apply BitVec.eq_of_toNat_eq
  have h := b.isLt
  simp only [regOfField, fieldOfReg, BitVec.toNat_ofNat]
  omega

/-- A register operand is read back from its field (R58). -/
@[simp] theorem valueOfFields_reg (r : RegId) :
    valueOfFields 0#1 ((fieldOfReg r).setWidth 16) = .ok (.reg r) := by
  have hi : ((fieldOfReg r).setWidth 16).extractLsb' 3 13 = 0 := by revert r; decide
  have lo : ((fieldOfReg r).setWidth 16).extractLsb' 0 3 = fieldOfReg r := by revert r; decide
  simp [valueOfFields, hi, lo]

/-- An immediate operand is read back from its field (R58). -/
@[simp] theorem valueOfFields_imm (k : Byte) : valueOfFields 1#1 (k.setWidth 16) = .ok (.imm k) := by
  have h := k.isLt
  have hi : (k.setWidth 16).extractLsb' 8 8 = 0 := by
    apply BitVec.eq_of_toNat_eq
    simp only [BitVec.extractLsb'_toNat, BitVec.toNat_setWidth, Nat.shiftRight_eq_div_pow,
      BitVec.ofNat_eq_ofNat, BitVec.toNat_ofNat]
    omega
  have lo : (k.setWidth 16).extractLsb' 0 8 = k := by
    apply BitVec.eq_of_toNat_eq
    simp only [BitVec.extractLsb'_toNat, BitVec.toNat_setWidth, Nat.shiftRight_eq_div_pow]
    omega
  simp [valueOfFields, hi, lo]

@[simp] theorem addressOfFields_reg (r : RegId) :
    addressOfFields 0#1 ((fieldOfReg r).setWidth 16) = .ok (.ind r) := by
  simp only [addressOfFields, valueOfFields_reg]

@[simp] theorem addressOfFields_imm (k : Byte) :
    addressOfFields 1#1 (k.setWidth 16) = .ok (.abs k) := by
  simp only [addressOfFields, valueOfFields_imm]

/-- What the operand fields of a Value are (R58). -/
theorem valueOfFields_ok {i : BitVec 1} {k : BitVec 16} {v : Value} :
    valueOfFields i k = .ok v ↔
      (∃ r, v = .reg r ∧ i = 0#1 ∧ k = (fieldOfReg r).setWidth 16) ∨
      (∃ b, v = .imm b ∧ i = 1#1 ∧ k = b.setWidth 16) := by
  constructor
  · intro h
    have hk := k.isLt
    unfold valueOfFields at h
    split at h
    · rename_i hi
      split at h
      · rename_i hz
        refine .inr ⟨_, (Except.ok.inj h).symm, hi, ?_⟩
        have hz' := congrArg BitVec.toNat hz
        apply BitVec.eq_of_toNat_eq
        simp only [BitVec.extractLsb'_toNat, BitVec.toNat_setWidth, Nat.shiftRight_eq_div_pow,
          BitVec.ofNat_eq_ofNat, BitVec.toNat_ofNat] at hz' ⊢
        omega
      · cases h
    · rename_i hi
      split at h
      · rename_i hz
        refine .inl ⟨_, (Except.ok.inj h).symm, ?_, ?_⟩
        · apply BitVec.eq_of_toNat_eq
          have h1 := i.isLt
          have hne : i.toNat ≠ 1 := fun e => hi (BitVec.eq_of_toNat_eq e)
          simp only [BitVec.toNat_ofNat]
          omega
        · have hz' := congrArg BitVec.toNat hz
          rw [fieldOfReg_regOfField]
          apply BitVec.eq_of_toNat_eq
          simp only [BitVec.extractLsb'_toNat, BitVec.toNat_setWidth, Nat.shiftRight_eq_div_pow,
            BitVec.ofNat_eq_ofNat, BitVec.toNat_ofNat] at hz' ⊢
          omega
      · cases h
  · rintro (⟨r, rfl, rfl, rfl⟩ | ⟨b, rfl, rfl, rfl⟩)
    · exact valueOfFields_reg r
    · exact valueOfFields_imm b

/-- What the operand fields of an Address are (R58). -/
theorem addressOfFields_ok {i : BitVec 1} {k : BitVec 16} {a : Address} :
    addressOfFields i k = .ok a ↔
      (∃ r, a = .ind r ∧ i = 0#1 ∧ k = (fieldOfReg r).setWidth 16) ∨
      (∃ b, a = .abs b ∧ i = 1#1 ∧ k = b.setWidth 16) := by
  constructor
  · intro h
    unfold addressOfFields at h
    split at h
    · rename_i r hv
      rcases valueOfFields_ok.1 hv with ⟨r', hr, hi, hk⟩ | ⟨b, hb, -⟩
      · cases hr; cases h; exact .inl ⟨_, rfl, hi, hk⟩
      · cases hb
    · rename_i b hv
      rcases valueOfFields_ok.1 hv with ⟨r', hr, -⟩ | ⟨b', hb, hi, hk⟩
      · cases hr
      · cases hb; cases h; exact .inr ⟨_, rfl, hi, hk⟩
    · cases h
  · rintro (⟨r, rfl, rfl, rfl⟩ | ⟨b, rfl, rfl, rfl⟩)
    · exact addressOfFields_reg r
    · exact addressOfFields_imm b

/-- A format answers an instruction only where its unused fields are zero (R64). -/
theorem ifZero_ok {unused : Bool} {x : Except Reject Instr} {i : Instr} :
    ifZero unused x = .ok i ↔ unused = true ∧ x = .ok i := by
  cases unused <;> simp [ifZero]

theorem except_map_ok {α β : Type} {g : α → β} {x : Except Reject α} {b : β} :
    x.map g = .ok b ↔ ∃ a, x = .ok a ∧ g a = b := by
  cases x <;> simp [Except.map]

/-- A Value's `i` and `k`, placed as in R58. -/
def Fields.withValue (f : Fields) : Value → Fields
  | .reg r => f.withReg r
  | .imm k => f.withImm k

/-- An Address's `i` and `k`, placed as in R58. -/
def Fields.withAddress (f : Fields) : Address → Fields
  | .ind r => f.withReg r
  | .abs k => f.withImm k

/-- Nothing but the opcode of `f`. -/
def Fields.onlyOp (f : Fields) : Fields := { op := f.op, cond := 0, rd := 0, ra := 0, i := 0, k := 0 }

/-! What each format answers, and for exactly which fields (R60). -/

theorem Fields.formatRRV_ok {f : Fields} {mk : RegId → RegId → Value → Instr} {i : Instr} :
    f.formatRRV mk = .ok i ↔
      ∃ d a v, mk d a v = i ∧ f = ((f.onlyOp.withRd d).withRa a).withValue v := by
  obtain ⟨op, cond, rd, ra, b, k⟩ := f
  simp only [formatRRV, ifZero_ok, except_map_ok, decide_eq_true_eq]
  constructor
  · rintro ⟨rfl, v, hv, rfl⟩
    refine ⟨_, _, v, rfl, ?_⟩
    rcases valueOfFields_ok.1 hv with ⟨r, rfl, rfl, rfl⟩ | ⟨c, rfl, rfl, rfl⟩ <;>
      simp [onlyOp, withValue, withReg, withImm, withRd, withRa]
  · rintro ⟨d, a, v, rfl, h⟩
    cases v <;> simp only [onlyOp, withValue, withReg, withImm, withRd, withRa, Fields.mk.injEq] at h <;>
      obtain ⟨-, rfl, rfl, rfl, rfl, rfl⟩ := h
    · exact ⟨rfl, _, valueOfFields_reg _, by simp⟩
    · exact ⟨rfl, _, valueOfFields_imm _, by simp⟩

theorem Fields.formatRV_ok {f : Fields} {mk : RegId → Value → Instr} {i : Instr} :
    f.formatRV mk = .ok i ↔ ∃ d v, mk d v = i ∧ f = (f.onlyOp.withRd d).withValue v := by
  obtain ⟨op, cond, rd, ra, b, k⟩ := f
  simp only [formatRV, ifZero_ok, except_map_ok, decide_eq_true_eq]
  constructor
  · rintro ⟨⟨rfl, rfl⟩, v, hv, rfl⟩
    refine ⟨_, v, rfl, ?_⟩
    rcases valueOfFields_ok.1 hv with ⟨r, rfl, rfl, rfl⟩ | ⟨c, rfl, rfl, rfl⟩ <;>
      simp [onlyOp, withValue, withReg, withImm, withRd]
  · rintro ⟨d, v, rfl, h⟩
    cases v <;> simp only [onlyOp, withValue, withReg, withImm, withRd, Fields.mk.injEq] at h <;>
      obtain ⟨-, rfl, rfl, rfl, rfl, rfl⟩ := h
    · exact ⟨⟨rfl, rfl⟩, _, valueOfFields_reg _, by simp⟩
    · exact ⟨⟨rfl, rfl⟩, _, valueOfFields_imm _, by simp⟩

theorem Fields.formatCV_ok {f : Fields} {mk : RegId → Value → Instr} {i : Instr} :
    f.formatCV mk = .ok i ↔ ∃ a v, mk a v = i ∧ f = (f.onlyOp.withRa a).withValue v := by
  obtain ⟨op, cond, rd, ra, b, k⟩ := f
  simp only [formatCV, ifZero_ok, except_map_ok, decide_eq_true_eq]
  constructor
  · rintro ⟨⟨rfl, rfl⟩, v, hv, rfl⟩
    refine ⟨_, v, rfl, ?_⟩
    rcases valueOfFields_ok.1 hv with ⟨r, rfl, rfl, rfl⟩ | ⟨c, rfl, rfl, rfl⟩ <;>
      simp [onlyOp, withValue, withReg, withImm, withRa]
  · rintro ⟨d, v, rfl, h⟩
    cases v <;> simp only [onlyOp, withValue, withReg, withImm, withRa, Fields.mk.injEq] at h <;>
      obtain ⟨-, rfl, rfl, rfl, rfl, rfl⟩ := h
    · exact ⟨⟨rfl, rfl⟩, _, valueOfFields_reg _, by simp⟩
    · exact ⟨⟨rfl, rfl⟩, _, valueOfFields_imm _, by simp⟩

theorem Fields.formatLD_ok {f : Fields} {mk : RegId → Address → Instr} {i : Instr} :
    f.formatLD mk = .ok i ↔ ∃ d a, mk d a = i ∧ f = (f.onlyOp.withRd d).withAddress a := by
  obtain ⟨op, cond, rd, ra, b, k⟩ := f
  simp only [formatLD, ifZero_ok, except_map_ok, decide_eq_true_eq]
  constructor
  · rintro ⟨⟨rfl, rfl⟩, v, hv, rfl⟩
    refine ⟨_, v, rfl, ?_⟩
    rcases addressOfFields_ok.1 hv with ⟨r, rfl, rfl, rfl⟩ | ⟨c, rfl, rfl, rfl⟩ <;>
      simp [onlyOp, withAddress, withReg, withImm, withRd]
  · rintro ⟨d, v, rfl, h⟩
    cases v <;> simp only [onlyOp, withAddress, withReg, withImm, withRd, Fields.mk.injEq] at h <;>
      obtain ⟨-, rfl, rfl, rfl, rfl, rfl⟩ := h
    · exact ⟨⟨rfl, rfl⟩, _, addressOfFields_reg _, by simp⟩
    · exact ⟨⟨rfl, rfl⟩, _, addressOfFields_imm _, by simp⟩

theorem Fields.formatST_ok {f : Fields} {mk : Address → RegId → Instr} {i : Instr} :
    f.formatST mk = .ok i ↔ ∃ a r, mk a r = i ∧ f = (f.onlyOp.withRa r).withAddress a := by
  obtain ⟨op, cond, rd, ra, b, k⟩ := f
  simp only [formatST, ifZero_ok, except_map_ok, decide_eq_true_eq]
  constructor
  · rintro ⟨⟨rfl, rfl⟩, v, hv, rfl⟩
    refine ⟨v, _, rfl, ?_⟩
    rcases addressOfFields_ok.1 hv with ⟨r, rfl, rfl, rfl⟩ | ⟨c, rfl, rfl, rfl⟩ <;>
      simp [onlyOp, withAddress, withReg, withImm, withRa]
  · rintro ⟨v, d, rfl, h⟩
    cases v <;> simp only [onlyOp, withAddress, withReg, withImm, withRa, Fields.mk.injEq] at h <;>
      obtain ⟨-, rfl, rfl, rfl, rfl, rfl⟩ := h
    · exact ⟨⟨rfl, rfl⟩, _, addressOfFields_reg _, by simp⟩
    · exact ⟨⟨rfl, rfl⟩, _, addressOfFields_imm _, by simp⟩

theorem Fields.formatB_ok {f : Fields} {mk : Cond → Label → Instr} {i : Instr} :
    f.formatB mk = .ok i ↔
      ∃ c, condOfField f.cond = .ok c ∧ mk c f.k = i ∧
        f = { f.onlyOp with cond := f.cond, k := f.k } := by
  obtain ⟨op, cond, rd, ra, b, k⟩ := f
  simp only [formatB, ifZero_ok, except_map_ok, decide_eq_true_eq, onlyOp, Fields.mk.injEq, true_and,
    and_true]
  constructor
  · rintro ⟨h, c, hc, hi⟩
    exact ⟨c, hc, hi, h⟩
  · rintro ⟨c, hc, hi, h⟩
    exact ⟨h, c, hc, hi⟩

theorem Fields.formatL_ok {f : Fields} {mk : Label → Instr} {i : Instr} :
    f.formatL mk = .ok i ↔ mk f.k = i ∧ f = f.onlyOp.withLabel f.k := by
  obtain ⟨op, cond, rd, ra, b, k⟩ := f
  simp only [formatL, ifZero_ok, decide_eq_true_eq, onlyOp, withLabel, Fields.mk.injEq, true_and, and_true,
    Except.ok.injEq]
  exact and_comm

theorem Fields.formatZ_ok {f : Fields} {ins i : Instr} :
    f.formatZ ins = .ok i ↔ ins = i ∧ f = f.onlyOp := by
  obtain ⟨op, cond, rd, ra, b, k⟩ := f
  simp only [formatZ, ifZero_ok, decide_eq_true_eq, onlyOp, Fields.mk.injEq, true_and, Except.ok.injEq]
  exact and_comm

end Sys2Proof
end

