-- ==== Sys2Proof/Laws/Memory.lean ====
section
/-!
SUPPORT. Laws of data memory: a read after a write, that every write keeps the canonical form, that the
form makes equal contents equal data, and that writing back what was there restores it.
-/

namespace Sys2Proof.Machine

@[simp] theorem Memory.read_nil (a : Nat) : Memory.read [] a = Config.emptyByte := rfl

/-- Below the least listed address nothing is listed. -/
theorem Memory.read_of_wfFrom_lt {lo a : Nat} {m : Memory} (h : m.wfFrom lo = true) (ha : a < lo) :
    m.read a = Config.emptyByte := by
  induction m generalizing lo with
  | nil => rfl
  | cons cell rest ih =>
    obtain ⟨b, v⟩ := cell
    simp only [wfFrom, Bool.and_eq_true, decide_eq_true_eq] at h
    obtain ⟨⟨⟨hlo, -⟩, -⟩, hrest⟩ := h
    have : a ≠ b := by omega
    simp only [read, this, if_false]
    exact ih hrest (by omega)

theorem Memory.wfFrom_mono {lo lo' : Nat} {m : Memory} (h : m.wfFrom lo = true) (hl : lo' ≤ lo) :
    m.wfFrom lo' = true := by
  cases m with
  | nil => rfl
  | cons cell rest =>
    obtain ⟨b, v⟩ := cell
    simp only [wfFrom, Bool.and_eq_true, decide_eq_true_eq] at h ⊢
    exact ⟨⟨⟨by omega, h.1.1.2⟩, h.1.2⟩, h.2⟩

theorem Memory.wfFrom_cons {addr : Nat} {v : Byte} {m : Memory} (h : m.wfFrom (addr + 1) = true)
    (ha : addr < Config.memSize) : (Memory.cons addr v m).wfFrom addr = true := by
  unfold cons
  split
  · exact wfFrom_mono h (by omega)
  · simp [wfFrom, *]

theorem Memory.wfFrom_write {lo addr : Nat} {v : Byte} {m : Memory} (h : m.wfFrom lo = true)
    (ha : addr < Config.memSize) (hl : lo ≤ addr) : (m.write addr v).wfFrom lo = true := by
  induction m generalizing lo with
  | nil => exact wfFrom_mono (wfFrom_cons rfl ha) hl
  | cons cell rest ih =>
    obtain ⟨b, x⟩ := cell
    have h' := h
    simp only [wfFrom, Bool.and_eq_true, decide_eq_true_eq] at h
    unfold write
    split
    · refine wfFrom_mono (wfFrom_cons ?_ ha) hl
      simp only [wfFrom, Bool.and_eq_true, decide_eq_true_eq]
      exact ⟨⟨⟨by omega, h.1.1.2⟩, h.1.2⟩, h.2⟩
    · split
      · subst_vars
        exact wfFrom_mono (wfFrom_cons h.2 ha) hl
      · simp only [wfFrom, Bool.and_eq_true, decide_eq_true_eq]
        exact ⟨h.1, ih h.2 (by omega)⟩

/-- A write keeps the canonical form. -/
theorem Memory.wf_write {m : Memory} {addr : Nat} {v : Byte} (h : m.wf = true)
    (ha : addr < Config.memSize) : (m.write addr v).wf = true :=
  wfFrom_write h ha (Nat.zero_le _)

theorem Memory.read_cons {addr : Nat} {v : Byte} {m : Memory} (h : m.wfFrom (addr + 1) = true)
    (a : Nat) : (Memory.cons addr v m).read a = if a = addr then v else m.read a := by
  unfold cons
  split
  · split
    · subst_vars
      exact read_of_wfFrom_lt h (by omega)
    · rfl
  · rfl

theorem Memory.read_write_from {lo addr : Nat} {v : Byte} {m : Memory} (h : m.wfFrom lo = true)
    (a : Nat) : (m.write addr v).read a = if a = addr then v else m.read a := by
  induction m generalizing lo with
  | nil => exact read_cons rfl a
  | cons cell rest ih =>
    obtain ⟨b, x⟩ := cell
    simp only [wfFrom, Bool.and_eq_true, decide_eq_true_eq] at h
    unfold write
    split
    · rw [read_cons]
      simp only [wfFrom, Bool.and_eq_true, decide_eq_true_eq]
      exact ⟨⟨⟨by omega, h.1.1.2⟩, h.1.2⟩, h.2⟩
    · split
      · subst_vars
        rw [read_cons h.2]
        simp only [read]
        split <;> rfl
      · simp only [read, ih h.2]
        by_cases hab : a = b
        · subst hab
          have : a ≠ addr := by omega
          simp [this]
        · simp [hab]

/-- A read after a write: the byte written at its address, every other byte as before (R32). -/
theorem Memory.read_write {m : Memory} {addr : Nat} {v : Byte} (h : m.wf = true) (a : Nat) :
    (m.write addr v).read a = if a = addr then v else m.read a :=
  read_write_from h a

theorem Memory.ext_from {lo : Nat} {m m' : Memory} (h : m.wfFrom lo = true) (h' : m'.wfFrom lo = true)
    (heq : ∀ a, m.read a = m'.read a) : m = m' := by
  induction m generalizing lo m' with
  | nil =>
    cases m' with
    | nil => rfl
    | cons cell rest =>
      obtain ⟨b, v⟩ := cell
      simp only [wfFrom, Bool.and_eq_true, decide_eq_true_eq] at h'
      have := heq b
      simp only [read, if_true] at this
      exact absurd this.symm h'.1.2
  | cons cell rest ih =>
    obtain ⟨b, v⟩ := cell
    cases m' with
    | nil =>
      simp only [wfFrom, Bool.and_eq_true, decide_eq_true_eq] at h
      have := heq b
      simp only [read, if_true] at this
      exact absurd this h.1.2
    | cons cell' rest' =>
      obtain ⟨b', v'⟩ := cell'
      have hk := h
      have hk' := h'
      simp only [wfFrom, Bool.and_eq_true, decide_eq_true_eq] at h h'
      have hb : b = b' := by
        rcases Nat.lt_trichotomy b b' with hlt | heq' | hlt
        · have e := heq b
          have ne : b ≠ b' := by omega
          simp only [read, if_true, ne, if_false] at e
          rw [read_of_wfFrom_lt h'.2 (by omega)] at e
          exact absurd e h.1.2
        · exact heq'
        · have e := heq b'
          have ne : b' ≠ b := by omega
          simp only [read, if_true, ne, if_false] at e
          rw [read_of_wfFrom_lt h.2 (by omega)] at e
          exact absurd e.symm h'.1.2
      subst hb
      have hv : v = v' := by simpa [read] using heq b
      subst hv
      congr 1
      refine ih h.2 h'.2 fun a => ?_
      by_cases ha : a = b
      · subst ha
        rw [read_of_wfFrom_lt h.2 (by omega), read_of_wfFrom_lt h'.2 (by omega)]
      · simpa [read, ha] using heq a

/-- Two memories in canonical form with the same bytes are the same data (R26). -/
theorem Memory.ext {m m' : Memory} (h : m.wf = true) (h' : m'.wf = true)
    (heq : ∀ a, m.read a = m'.read a) : m = m' :=
  ext_from h h' heq

/-- Writing back the byte that was there restores the memory. -/
theorem Memory.write_write_read {m : Memory} {addr : Nat} {v : Byte} (h : m.wf = true)
    (ha : addr < Config.memSize) : (m.write addr v).write addr (m.read addr) = m := by
  refine ext (wf_write (wf_write h ha) ha) h fun a => ?_
  rw [read_write (wf_write h ha), read_write h]
  split
  · subst_vars; rfl
  · rfl

/-- `MemWrite` answers a memory exactly inside the address space (R32, R33). -/
theorem memWrite_ok {m m' : Memory} {addr : Nat} {v : Byte} :
    memWrite m addr v = .ok m' ↔ addr < Config.memSize ∧ m' = m.write addr v := by
  unfold memWrite
  split
  · simp_all [eq_comm]
  · simp only [reduceCtorEq, false_iff]
    omega

/-- `MemRead` answers a byte exactly inside the address space (R31, R33). -/
theorem memRead_ok {m : Memory} {addr : Nat} {v : Byte} :
    memRead m addr = .ok v ↔ addr < Config.memSize ∧ v = m.read addr := by
  unfold memRead
  split
  · simp_all [eq_comm]
  · simp only [reduceCtorEq, false_iff]
    omega

/-- An address that is a byte is always read (R44). -/
@[simp] theorem memRead_byte (m : Memory) (a : Byte) : memRead m a.toNat = .ok (m.read a.toNat) := by
  have := a.isLt
  exact memRead_ok.2 ⟨by simpa [Config.memSize] using this, rfl⟩

/-- An address that is a byte is always written (R44). -/
@[simp] theorem memWrite_byte (m : Memory) (a v : Byte) :
    memWrite m a.toNat v = .ok (m.write a.toNat v) := by
  have := a.isLt
  exact memWrite_ok.2 ⟨by simpa [Config.memSize] using this, rfl⟩

end Sys2Proof.Machine
end

