-- ==== Sys2Proof/Laws/Ops.lean ====
section
/-!
SUPPORT. Laws of the registers, the call stack and the label table.
-/

namespace Sys2Proof.Machine

theorem get_eq_getElem (x : Vector Byte 8) (r : RegId) : x.get r = x[r.val]'r.isLt := rfl

/-- A register read after a write: the value at the register written, every other as before (R87). -/
theorem get_setReg (x : Vector Byte 8) (r r' : RegId) (v : Byte) :
    (setReg x r v).get r' = if r' = r then v else x.get r' := by
  simp only [setReg, get_eq_getElem, Vector.getElem_set]
  by_cases h : r' = r
  · simp [h]
  · have hne : ¬ r.val = r'.val := fun e => h (Fin.ext e.symm)
    simp [h, hne]

@[simp] theorem get_setReg_self (x : Vector Byte 8) (r : RegId) (v : Byte) :
    (setReg x r v).get r = v := by simp [get_setReg]

/-- Writing back what a register held restores the register file. -/
@[simp] theorem setReg_setReg_get (x : Vector Byte 8) (r : RegId) (v : Byte) :
    setReg (setReg x r v) r (x.get r) = x := by
  apply Vector.ext
  intro i hi
  have h : (setReg (setReg x r v) r (x.get r)).get ⟨i, hi⟩ = x.get ⟨i, hi⟩ := by
    simp only [get_setReg]
    split <;> simp_all
  exact h

/-- Everything `push` can answer (R89, R185). -/
theorem push_ok {depth : Option Nat} {cs cs' : List Pc} {v : Pc} :
    push depth cs v = .ok cs' ↔ (∀ d, depth = some d → cs.length < d) ∧ cs' = cs ++ [v] := by
  unfold push
  cases depth with
  | none => simp [eq_comm]
  | some d =>
    by_cases h : cs.length < d
    · simp [h, eq_comm]
    · simp only [h, if_false, reduceCtorEq, false_iff, not_and]
      intro hd
      exact absurd (hd d rfl) h

/-- `push` fails only by `StackOverflow`, on a full finite stack (R185). -/
theorem push_error {depth : Option Nat} {cs : List Pc} {v : Pc} {f : Fault} :
    push depth cs v = .error f ↔ f = .stackOverflow ∧ ∃ d, depth = some d ∧ d ≤ cs.length := by
  unfold push
  cases depth with
  | none => simp
  | some d =>
    by_cases h : cs.length < d
    · simp [h]
    · simp only [h, if_false, Except.error.injEq, Option.some.injEq, exists_eq_left']
      constructor
      · intro e; exact ⟨e.symm, by omega⟩
      · intro e; exact e.1.symm

/-- Pushing back the entry a pop removed restores the stack (R97). -/
theorem pop_append_top {cs : List Pc} {v : Pc} (h : top cs = some v) : pop cs ++ [v] = cs := by
  obtain ⟨ys, rfl⟩ := List.getLast?_eq_some_iff.1 h
  simp [pop]

@[simp] theorem pop_append (cs : List Pc) (v : Pc) : pop (cs ++ [v]) = cs := by simp [pop]
@[simp] theorem top_append (cs : List Pc) (v : Pc) : top (cs ++ [v]) = some v := by simp [top]
@[simp] theorem pop_nil : pop [] = [] := rfl
@[simp] theorem top_nil : top [] = none := rfl

theorem top_eq_none {cs : List Pc} : top cs = none ↔ cs = [] := by simp [top]

/-- A label lookup fails only by `UnknownLabel` of the label looked up (R154, R182). -/
theorem lookupLabel_error {labels : List (Label × Pc)} {l : Label} {f : Fault} :
    lookupLabel labels l = .error f → f = .unknownLabel l := by
  induction labels with
  | nil => intro h; simpa [lookupLabel, eq_comm] using h
  | cons e rest ih =>
    obtain ⟨a, t⟩ := e
    unfold lookupLabel
    split
    · simp
    · exact ih

/-- A label is found exactly when the table has an entry for it (R25, R154). -/
theorem lookupLabel_ok {labels : List (Label × Pc)} {l : Label} :
    (∃ t, lookupLabel labels l = .ok t) ↔ ∃ e ∈ labels, e.1 = l := by
  induction labels with
  | nil => simp [lookupLabel]
  | cons e rest ih =>
    obtain ⟨a, t⟩ := e
    unfold lookupLabel
    by_cases h : l = a
    · subst h; simp
    · simp only [h, if_false, ih, List.mem_cons, exists_eq_or_imp]
      simp [Ne.symm h]

/-- The value a lookup answers is the value of one of the table's entries. -/
theorem lookupLabel_mem {labels : List (Label × Pc)} {l : Label} {t : Pc}
    (h : lookupLabel labels l = .ok t) : (l, t) ∈ labels := by
  induction labels with
  | nil => simp [lookupLabel] at h
  | cons e rest ih =>
    obtain ⟨a, u⟩ := e
    unfold lookupLabel at h
    split at h
    · subst_vars
      cases h
      exact List.mem_cons_self ..
    · exact List.mem_cons_of_mem _ (ih h)

end Sys2Proof.Machine
end

