-- ==== Sys2Proof/Laws/State.lean ====
section
/-!
SUPPORT. One lemma per field per update of the state, so that no proof unfolds a record update.
-/

namespace Sys2Proof.Machine

/-! `State.stepped`: the state after a successful step. -/

@[simp] theorem State.stepped_proc (s : State) (p : Proc) (e : Effect) : (s.stepped p e).proc = p := rfl
@[simp] theorem State.stepped_code (s : State) (p : Proc) (e : Effect) :
    (s.stepped p e).code = s.code := rfl
@[simp] theorem State.stepped_labels (s : State) (p : Proc) (e : Effect) :
    (s.stepped p e).labels = s.labels := rfl
@[simp] theorem State.stepped_params (s : State) (p : Proc) (e : Effect) :
    (s.stepped p e).params = s.params := rfl
@[simp] theorem State.stepped_history (s : State) (p : Proc) (e : Effect) :
    (s.stepped p e).history = recordHistory s.params.histDepth s.history (s.proc, e) := rfl
@[simp] theorem State.stepped_report (s : State) (p : Proc) (e : Effect) :
    (s.stepped p e).report = none := rfl

/-! `State.withFetchWord`: the word the next step fetches. -/

@[simp] theorem State.withFetchWord_proc (s : State) (nbits w : Nat) :
    (s.withFetchWord nbits w).proc = { s.proc with halted := false } := rfl
@[simp] theorem State.withFetchWord_code (s : State) (nbits w : Nat) :
    (s.withFetchWord nbits w).code
      = placeWord s.code s.proc.pc (BitVec.ofNat 32 (w % 2 ^ nbits)) := rfl
@[simp] theorem State.withFetchWord_labels (s : State) (nbits w : Nat) :
    (s.withFetchWord nbits w).labels
      = resolveLabel s.labels s.proc.pc (BitVec.ofNat 32 (w % 2 ^ nbits)) := rfl
@[simp] theorem State.withFetchWord_params (s : State) (nbits w : Nat) :
    (s.withFetchWord nbits w).params = s.params := rfl
@[simp] theorem State.withFetchWord_history (s : State) (nbits w : Nat) :
    (s.withFetchWord nbits w).history = s.history := rfl
@[simp] theorem State.withFetchWord_report (s : State) (nbits w : Nat) :
    (s.withFetchWord nbits w).report = s.report := rfl

/-! `State.hostReset` and `State.loadProgram`: the host's operations between steps. -/

@[simp] theorem State.hostReset_proc (s : State) : s.hostReset.proc = Proc.reset := rfl
@[simp] theorem State.hostReset_code (s : State) : s.hostReset.code = s.code := rfl
@[simp] theorem State.hostReset_labels (s : State) : s.hostReset.labels = s.labels := rfl
@[simp] theorem State.hostReset_params (s : State) : s.hostReset.params = s.params := rfl
@[simp] theorem State.hostReset_history (s : State) : s.hostReset.history = [] := rfl
@[simp] theorem State.hostReset_report (s : State) : s.hostReset.report = none := rfl

@[simp] theorem State.loadProgram_proc (s : State) (code : List Word) (labels : List (Label × Pc)) :
    (s.loadProgram code labels).proc = s.proc := rfl
@[simp] theorem State.loadProgram_code (s : State) (code : List Word) (labels : List (Label × Pc)) :
    (s.loadProgram code labels).code = code := rfl
@[simp] theorem State.loadProgram_labels (s : State) (code : List Word) (labels : List (Label × Pc)) :
    (s.loadProgram code labels).labels = labels := rfl
@[simp] theorem State.loadProgram_params (s : State) (code : List Word) (labels : List (Label × Pc)) :
    (s.loadProgram code labels).params = s.params := rfl
@[simp] theorem State.loadProgram_history (s : State) (code : List Word) (labels : List (Label × Pc)) :
    (s.loadProgram code labels).history = s.history := rfl
@[simp] theorem State.loadProgram_report (s : State) (code : List Word) (labels : List (Label × Pc)) :
    (s.loadProgram code labels).report = s.report := rfl

end Sys2Proof.Machine
end

