-- ==== Sys2Proof/Laws/Effect.lean ====
section
/-!
SUPPORT. Laws of commit, undo and the history: everything each of them can answer.
-/

namespace Sys2Proof.Machine

@[simp] theorem applyReg_none (x : Vector Byte 8) : applyReg x none = x := rfl
@[simp] theorem applyReg_some (x : Vector Byte 8) (r : RegId) (v : Byte) :
    applyReg x (some (r, v)) = setReg x r v := rfl
@[simp] theorem applyWrite_none (m : Memory) : applyWrite m none = .ok m := rfl
@[simp] theorem applyWrite_some (m : Memory) (a : Nat) (v : Byte) :
    applyWrite m (some (a, v)) = memWrite m a v := rfl
@[simp] theorem applyStack_none (d : Option Nat) (cs : List Pc) : applyStack d cs none = .ok cs := rfl
@[simp] theorem applyStack_push (d : Option Nat) (cs : List Pc) (v : Pc) :
    applyStack d cs (some (.push v)) = push d cs v := rfl
@[simp] theorem applyStack_pop (d : Option Nat) (cs : List Pc) :
    applyStack d cs (some .pop) = .ok (pop cs) := rfl

/-- Everything a commit that succeeds does (R86 to R90). -/
theorem apply_ok {depth : Option Nat} {p q : Proc} {e : Effect} :
    apply depth p e = .ok q ↔
      applyWrite p.mem e.write = .ok q.mem ∧ applyStack depth p.cs e.stack = .ok q.cs ∧
      q.x = applyReg p.x e.reg ∧ q.flags = applyFlags p.flags e.flags ∧
      q.pc = e.jump.getD (p.pc + 1) ∧ q.halted = e.halt.getD p.halted := by
  obtain ⟨x, mem, flags, pc, cs, halted⟩ := q
  unfold apply
  cases hw : applyWrite p.mem e.write with
  | error f => simp
  | ok m =>
    cases hs : applyStack depth p.cs e.stack with
    | error f => simp
    | ok c =>
      simp only [Except.ok.injEq, Proc.mk.injEq]
      constructor
      · rintro ⟨rfl, rfl, rfl, rfl, rfl, rfl⟩
        simp
      · rintro ⟨rfl, rfl, rfl, rfl, rfl, rfl⟩
        simp

/-- A commit fails only by `OutOfRange` of its write or `StackOverflow` of its push (R91, R185). -/
theorem apply_error {depth : Option Nat} {p : Proc} {e : Effect} {f : Fault}
    (h : apply depth p e = .error f) :
    (∃ a v, e.write = some (a, v) ∧ Config.memSize ≤ a ∧ f = .outOfRange a) ∨
    (f = .stackOverflow ∧ ∃ v, e.stack = some (.push v) ∧ ∃ d, depth = some d ∧ d ≤ p.cs.length) := by
  unfold apply at h
  cases hw : applyWrite p.mem e.write with
  | error g =>
    left
    rw [hw] at h
    cases h
    cases he : e.write with
    | none => simp [he] at hw
    | some u =>
      obtain ⟨a, v⟩ := u
      rw [he] at hw
      simp only [applyWrite_some, memWrite] at hw
      split at hw
      · cases hw
      · cases hw
        exact ⟨a, v, rfl, by omega, rfl⟩
  | ok m =>
    right
    rw [hw] at h
    cases hs : applyStack depth p.cs e.stack with
    | ok c => simp [hs] at h
    | error g =>
      simp only [hs] at h
      cases h
      cases he : e.stack with
      | none => simp [he] at hs
      | some o =>
        cases o with
        | pop => simp [he] at hs
        | push v =>
          rw [he, applyStack_push] at hs
          exact ⟨(push_error.1 hs).1, v, rfl, (push_error.1 hs).2⟩

/-- A commit keeps the state invariant of R23. -/
theorem apply_wf {depth : Option Nat} {p q : Proc} {e : Effect} (h : apply depth p e = .ok q)
    (hp : p.mem.wf = true) : q.mem.wf = true := by
  obtain ⟨hw, -⟩ := apply_ok.1 h
  cases he : e.write with
  | none =>
    simp only [he, applyWrite_none, Except.ok.injEq] at hw
    exact hw ▸ hp
  | some u =>
    obtain ⟨a, v⟩ := u
    rw [he, applyWrite_some] at hw
    obtain ⟨ha, hm⟩ := memWrite_ok.1 hw
    exact hm ▸ Memory.wf_write hp ha

/-- A commit leaves a stack that the depth holds (R185). -/
theorem apply_stack_within {depth : Option Nat} {p q : Proc} {e : Effect}
    (h : apply depth p e = .ok q) (hp : ∀ d, depth = some d → p.cs.length ≤ d) :
    ∀ d, depth = some d → q.cs.length ≤ d := by
  obtain ⟨-, hs, -⟩ := apply_ok.1 h
  intro d hd
  have hl := hp d hd
  cases he : e.stack with
  | none =>
    simp only [he, applyStack_none, Except.ok.injEq] at hs
    exact hs ▸ hl
  | some o =>
    cases o with
    | pop =>
      simp only [he, applyStack_pop, Except.ok.injEq] at hs
      rw [← hs]
      simp only [pop, List.length_dropLast]
      omega
    | push v =>
      rw [he, applyStack_push] at hs
      obtain ⟨hroom, hcs⟩ := push_ok.1 hs
      have := hroom d hd
      rw [hcs]
      simp only [List.length_append, List.length_singleton]
      omega

/-- Everything an inversion that succeeds gives (R93 to R98). -/
theorem invert_ok {p : Proc} {e e' : Effect} :
    invert p e = .ok e' ↔
      invertWrite p.mem e.write = .ok e'.write ∧ e'.flags = e.flags.map (invertFlags p.flags) ∧
      e'.reg = e.reg.map (fun u => (u.1, p.reg u.1)) ∧ e'.jump = some p.pc ∧
      e'.stack = invertStack p.cs e.stack ∧ e'.halt = invertHalt e.halt := by
  obtain ⟨flags, write, reg, jump, stack, halt⟩ := e'
  unfold invert
  cases hw : invertWrite p.mem e.write with
  | error f => simp
  | ok w =>
    simp only [Except.ok.injEq, Effect.mk.injEq]
    constructor
    · rintro ⟨rfl, rfl, rfl, rfl, rfl, rfl⟩
      simp
    · rintro ⟨rfl, rfl, rfl, rfl, rfl, rfl⟩
      simp

/-- Everything `perform` answers as a next state (R81 steps 5 to 8). -/
theorem State.perform_next {s t : State} {r : Except Fault Effect} :
    s.perform r = .next t ↔
      ∃ e p, r = .ok e ∧ apply s.params.stackDepth s.proc e = .ok p ∧ t = s.stepped p e := by
  unfold perform
  cases r with
  | error f => simp
  | ok e =>
    cases ha : apply s.params.stackDepth s.proc e with
    | error f => simp [ha]
    | ok p => simp [ha, eq_comm]

/-- `perform` faults by the execute stage's failure or the commit's (R183). -/
theorem State.perform_fault {s : State} {r : Except Fault Effect} {f : Fault} :
    s.perform r = .fault f ↔
      r = .error f ∨ ∃ e, r = .ok e ∧ apply s.params.stackDepth s.proc e = .error f := by
  unfold perform
  cases r with
  | error g => simp
  | ok e =>
    cases ha : apply s.params.stackDepth s.proc e with
    | error g => simp [ha]
    | ok p => simp [ha]

/-- `perform` refuses nothing. -/
theorem State.perform_not_refused (s : State) (r : Except Fault Effect) (why : Refusal) :
    s.perform r ≠ .refused why := by
  unfold perform
  cases r with
  | error f => simp
  | ok e =>
    cases ha : apply s.params.stackDepth s.proc e <;> simp [ha]

/-- An unbounded history grows by the entry (R102). -/
@[simp] theorem recordHistory_none (h : List (Proc × Effect)) (x : Proc × Effect) :
    recordHistory none h x = h ++ [x] := rfl

/-- A finite history never holds more than its depth (R5). -/
theorem length_recordHistory_le (d : Nat) (h : List (Proc × Effect)) (x : Proc × Effect) :
    (recordHistory (some d) h x).length ≤ d := by
  simp only [recordHistory, List.length_drop, List.length_append, List.length_singleton]
  omega

/-- What a step leaves of the history is the newest part of the old one and the new entry. -/
theorem recordHistory_eq_drop (depth : Option Nat) (h : List (Proc × Effect)) (x : Proc × Effect) :
    ∃ n, recordHistory depth h x = (h ++ [x]).drop n := by
  cases depth with
  | none => exact ⟨0, rfl⟩
  | some d => exact ⟨_, rfl⟩

/-- A machine with a history keeps the newest entry. -/
theorem getLast?_recordHistory {depth : Option Nat} (hd : depth ≠ some 0)
    (h : List (Proc × Effect)) (x : Proc × Effect) : (recordHistory depth h x).getLast? = some x := by
  cases depth with
  | none => simp
  | some d =>
    have h0 : d ≠ 0 := fun e => hd (e ▸ rfl)
    have hn : h.length + 1 - d ≤ h.length := by omega
    simp [recordHistory, List.drop_append_of_le_length hn]

end Sys2Proof.Machine
end

