-- ==== Sys2Proof/Laws/Encode.lean ====
section
/-!
SUPPORT. Laws of the encoder: an instruction's word as a number, from its fields.
-/

namespace Sys2Proof

@[simp] theorem toNat_fieldOfReg (r : RegId) : (fieldOfReg r).toNat = r.val := by
  have h := r.isLt
  simp only [fieldOfReg, BitVec.toNat_ofNat]
  omega

/-- A register number fits the 16-bit operand field. -/
@[simp] theorem reg_mod_65536 (r : RegId) : r.val % 65536 = r.val := by
  have h := r.isLt
  omega

/-- A byte fits the 16-bit operand field. -/
@[simp] theorem byte_mod_65536 (k : Byte) : k.toNat % 65536 = k.toNat := by
  have h := k.isLt
  omega

@[simp] theorem toNat_setWidth_fieldOfReg (r : RegId) :
    ((fieldOfReg r).setWidth 16).toNat = r.val := by
  rw [BitVec.toNat_setWidth, toNat_fieldOfReg]
  exact reg_mod_65536 r

@[simp] theorem toNat_setWidth_byte (k : Byte) : (k.setWidth 16).toNat = k.toNat := by
  rw [BitVec.toNat_setWidth]
  exact byte_mod_65536 k

namespace Machine

/-- An instruction's word as a number, read off its fields (R55). -/
theorem encodesAs_of_fields {i : Instr} {op cond rd ra operand : Nat} (h1 : i.fields.op.toNat = op)
    (h2 : i.fields.cond.toNat = cond) (h3 : i.fields.rd.toNat = rd) (h4 : i.fields.ra.toNat = ra)
    (h5 : i.fields.i.toNat * 2 ^ 16 + i.fields.k.toNat = operand) :
    EncodesAs i op cond rd ra operand := by
  unfold EncodesAs
  rw [encode, Fields.toNat_toWord, h1, h2, h3, h4, ← h5, Nat.add_assoc]

/-- The word of an instruction of format RRV as a number (R60). -/
theorem encodesAs_RRV {i : Instr} {op : Nat} {d a : RegId} {v : Value} (hop : op < 32)
    (h : i.fields = (((Fields.opcode op).withRd d).withRa a).withValue v) :
    EncodesAs i op 0 d a (valueNumber v) := by
  apply encodesAs_of_fields <;> rw [h] <;> cases v <;>
    simp [Fields.withValue, Fields.withReg, Fields.withImm, Fields.withRd, Fields.withRa,
      Fields.opcode, valueNumber, Nat.mod_eq_of_lt hop]

/-- The word of an instruction of format RV as a number (R60). -/
theorem encodesAs_RV {i : Instr} {op : Nat} {d : RegId} {v : Value} (hop : op < 32)
    (h : i.fields = ((Fields.opcode op).withRd d).withValue v) :
    EncodesAs i op 0 d 0 (valueNumber v) := by
  apply encodesAs_of_fields <;> rw [h] <;> cases v <;>
    simp [Fields.withValue, Fields.withReg, Fields.withImm, Fields.withRd, Fields.opcode,
      valueNumber, Nat.mod_eq_of_lt hop]

end Machine

end Sys2Proof
end

