-- ==== Sys2Proof/Laws/Flags.lean ====
section
/-!
SUPPORT. Laws of the flag unit: each helper in plain arithmetic.
-/

namespace Sys2Proof.Machine

@[simp] theorem toNat_lowByte (c : Nat) : (lowByte c).toNat = c % 256 := by
  have h : c &&& 255 = c % 256 := Nat.and_two_pow_sub_one_eq_mod c 8
  simp [lowByte, h]

/-- The high bit of a byte is set exactly from 0x80 on. -/
theorem hb_eq_decide (v : Byte) : hb v = decide (128 ≤ v.toNat) := by
  have h : hb v = v.msb := by simp [hb, BitVec.msb_eq_getLsbD_last]
  rw [h, BitVec.msb_eq_decide]

/-- `neg2c` is two's-complement negation (R121). -/
theorem neg2c_eq_neg (x : Byte) : neg2c x = -x := by
  apply BitVec.eq_of_toNat_eq
  simp [neg2c, BitVec.toNat_neg]

@[simp] theorem toNat_neg2c (x : Byte) : (neg2c x).toNat = (256 - x.toNat) % 256 := by
  simp [neg2c]

@[simp] theorem flagsFrom_z (a b : Byte) (c : Nat) : (flagsFrom a b c).z = decide (lowByte c = 0) := rfl
@[simp] theorem flagsFrom_n (a b : Byte) (c : Nat) :
    (flagsFrom a b c).n = decide (128 ≤ (lowByte c).toNat) := rfl

/-- The carry is set exactly when the raw result does not fit in 8 bits (R120). -/
@[simp] theorem flagsFrom_c (a b : Byte) (c : Nat) : (flagsFrom a b c).c = decide (256 ≤ c) := by
  simp only [flagsFrom, Nat.shiftRight_eq_div_pow, decide_eq_decide]
  omega

@[simp] theorem flagsFrom_v (a b : Byte) (c : Nat) :
    (flagsFrom a b c).v = decide (hb a = hb b ∧ hb (lowByte c) ≠ hb a) := rfl

/-- An Effect that writes all four flags leaves exactly them (R86). -/
@[simp] theorem applyFlags_all (f g : Flags) : applyFlags f (some g.all) = g := rfl

@[simp] theorem applyFlags_none (f : Flags) : applyFlags f none = f := rfl

end Sys2Proof.Machine
end

