-- ==== Sys2Proof/Laws/Exec.lean ====
section
/-!
SUPPORT. Laws of execution: every meaning is execute, commit and record (R81, R82), and what kinds of
Effect the execute stage can answer.
-/

namespace Sys2Proof.Machine

/-- An instruction's meaning is its Effect, performed (R81 steps 5 to 8, R82). -/
theorem exec_eq_perform (i : Instr) (s : State) : exec i s = s.perform (effectOf i s) := by
  cases i <;> rfl

/-- Everything an instruction that completes does. -/
theorem exec_next {i : Instr} {s t : State} :
    exec i s = .next t ↔
      ∃ e p, effectOf i s = .ok e ∧ apply s.params.stackDepth s.proc e = .ok p ∧ t = s.stepped p e := by
  rw [exec_eq_perform]
  exact State.perform_next

/-- Every way an instruction can fault. -/
theorem exec_fault {i : Instr} {s : State} {f : Fault} :
    exec i s = .fault f ↔
      effectOf i s = .error f ∨
        ∃ e, effectOf i s = .ok e ∧ apply s.params.stackDepth s.proc e = .error f := by
  rw [exec_eq_perform]
  exact State.perform_fault

@[simp] theorem effectOf_ldr (d : RegId) (a : Address) (s : State) :
    effectOf (Instr.ldr d a) s = ldrEffect d a s.proc := by cases a <;> rfl
@[simp] theorem effectOf_str (a : Address) (r : RegId) (s : State) :
    effectOf (Instr.str a r) s = .ok (strEffect a r s.proc) := by cases a <;> rfl
@[simp] theorem effectOf_mov (d : RegId) (v : Value) (s : State) :
    effectOf (Instr.mov d v) s = .ok (movEffect d v s.proc) := by cases v <;> rfl
@[simp] theorem effectOf_b (cc : Cond) (l : Label) (s : State) :
    effectOf (Instr.b cc l) s = branchEffect cc l s.labels s.proc := by cases cc <;> rfl
@[simp] theorem effectOf_call (l : Label) (s : State) :
    effectOf (.call l) s = callEffect l s.labels s.proc := rfl
@[simp] theorem effectOf_ret (s : State) : effectOf .ret s = .ok (retEffect s.proc) := rfl
@[simp] theorem effectOf_hlt (s : State) : effectOf .hlt s = .ok hltEffect := rfl
@[simp] theorem effectOf_nop (s : State) : effectOf .nop s = .ok nopEffect := rfl
@[simp] theorem effectOf_cmp (a : RegId) (v : Value) (s : State) :
    effectOf (Instr.cmp a v) s = .ok (cmpEffect a v s.proc) := by cases v <;> rfl
@[simp] theorem effectOf_neg (d : RegId) (v : Value) (s : State) :
    effectOf (Instr.neg d v) s = .ok (negEffect d v s.proc) := by cases v <;> rfl
@[simp] theorem effectOf_not (d : RegId) (v : Value) (s : State) :
    effectOf (Instr.not d v) s = .ok (notEffect d v s.proc) := by cases v <;> rfl
@[simp] theorem effectOf_add (d a : RegId) (v : Value) (s : State) :
    effectOf (Instr.add d a v) s = .ok (addEffect d a v s.proc) := by cases v <;> rfl
@[simp] theorem effectOf_sub (d a : RegId) (v : Value) (s : State) :
    effectOf (Instr.sub d a v) s = .ok (subEffect d a v s.proc) := by cases v <;> rfl
@[simp] theorem effectOf_and (d a : RegId) (v : Value) (s : State) :
    effectOf (Instr.and d a v) s = .ok (andEffect d a v s.proc) := by cases v <;> rfl
@[simp] theorem effectOf_or (d a : RegId) (v : Value) (s : State) :
    effectOf (Instr.or d a v) s = .ok (orEffect d a v s.proc) := by cases v <;> rfl
@[simp] theorem effectOf_xor (d a : RegId) (v : Value) (s : State) :
    effectOf (Instr.xor d a v) s = .ok (xorEffect d a v s.proc) := by cases v <;> rfl
@[simp] theorem effectOf_lsl (d a : RegId) (v : Value) (s : State) :
    effectOf (Instr.lsl d a v) s = .ok (lslEffect d a v s.proc) := by cases v <;> rfl
@[simp] theorem effectOf_lsr (d a : RegId) (v : Value) (s : State) :
    effectOf (Instr.lsr d a v) s = .ok (lsrEffect d a v s.proc) := by cases v <;> rfl
@[simp] theorem effectOf_asr (d a : RegId) (v : Value) (s : State) :
    effectOf (Instr.asr d a v) s = .ok (asrEffect d a v s.proc) := by cases v <;> rfl
@[simp] theorem effectOf_rol (d a : RegId) (v : Value) (s : State) :
    effectOf (Instr.rol d a v) s = .ok (rolEffect d a v s.proc) := by cases v <;> rfl
@[simp] theorem effectOf_ror (d a : RegId) (v : Value) (s : State) :
    effectOf (Instr.ror d a v) s = .ok (rorEffect d a v s.proc) := by cases v <;> rfl

/-- An Effect of register and flag fields only always commits: the register and the flags replaced, the
pc advanced (R86 to R88). -/
theorem apply_reg_flags (depth : Option Nat) (p : Proc) (r : Option (RegId × Byte))
    (f : Option FlagUpdate) :
    apply depth p { reg := r, flags := f } =
      .ok { p with x := applyReg p.x r, flags := applyFlags p.flags f, pc := p.pc + 1 } := rfl

end Sys2Proof.Machine
end

