-- ==== Sys2Proof/Laws/PerInstr.lean ====
section
/-!
SUPPORT. Facts about every instruction, made per constructor: the opcode number of each instruction's word
(spec/30_encoding.md R56).
-/

namespace Sys2Proof.Laws

/-- The opcode numbers of R56. -/
def opcodeNumber : Instr → Nat
  | .ldrInd _ _ | .ldrAbs _ _ => 0
  | .strInd _ _ | .strAbs _ _ => 1
  | .movReg _ _ | .movImm _ _ => 2
  | .bal _ | .beq _ | .bne _ | .bgt _ | .blt _ => 3
  | .bge _ | .ble _ | .bhi _ | .blo _ | .bhs _ => 3
  | .bls _ | .bpl _ | .bmi _ | .bvs _ | .bvc _ => 3
  | .call _ => 4
  | .ret => 5
  | .hlt => 6
  | .nop => 7
  | .cmpReg _ _ | .cmpImm _ _ => 8
  | .negReg _ _ | .negImm _ _ => 9
  | .notReg _ _ | .notImm _ _ => 10
  | .addReg _ _ _ | .addImm _ _ _ => 11
  | .subReg _ _ _ | .subImm _ _ _ => 12
  | .andReg _ _ _ | .andImm _ _ _ => 13
  | .orReg _ _ _ | .orImm _ _ _ => 14
  | .xorReg _ _ _ | .xorImm _ _ _ => 15
  | .lslReg _ _ _ | .lslImm _ _ _ => 16
  | .lsrReg _ _ _ | .lsrImm _ _ _ => 17
  | .asrReg _ _ _ | .asrImm _ _ _ => 18
  | .rolReg _ _ _ | .rolImm _ _ _ => 19
  | .rorReg _ _ _ | .rorImm _ _ _ => 20

/-- The most significant field of the instruction's word is its opcode number, which is not reserved. -/
def WordNumber.Statement (i : Instr) : Prop :=
  (Fields.ofWord (encode i)).op.toNat = opcodeNumber i ∧ opcodeNumber i ≤ 20

theorem WordNumber.of_fields {i : Instr} (h : i.fields.op.toNat = opcodeNumber i)
    (hb : opcodeNumber i ≤ 20) : WordNumber.Statement i := by
  refine ⟨?_, hb⟩
  rw [encode, Fields.ofWord_toWord]
  exact h

theorem WordNumber.ldrInd (d : RegId) (r : RegId) : WordNumber.Statement (.ldrInd d r) := WordNumber.of_fields rfl (Nat.le_of_ble_eq_true rfl)
theorem WordNumber.ldrAbs (d : RegId) (k : Byte) : WordNumber.Statement (.ldrAbs d k) := WordNumber.of_fields rfl (Nat.le_of_ble_eq_true rfl)
theorem WordNumber.strInd (r : RegId) (s : RegId) : WordNumber.Statement (.strInd r s) := WordNumber.of_fields rfl (Nat.le_of_ble_eq_true rfl)
theorem WordNumber.strAbs (k : Byte) (s : RegId) : WordNumber.Statement (.strAbs k s) := WordNumber.of_fields rfl (Nat.le_of_ble_eq_true rfl)
theorem WordNumber.movReg (d : RegId) (r : RegId) : WordNumber.Statement (.movReg d r) := WordNumber.of_fields rfl (Nat.le_of_ble_eq_true rfl)
theorem WordNumber.movImm (d : RegId) (k : Byte) : WordNumber.Statement (.movImm d k) := WordNumber.of_fields rfl (Nat.le_of_ble_eq_true rfl)
theorem WordNumber.bal (l : Label) : WordNumber.Statement (.bal l) := WordNumber.of_fields rfl (Nat.le_of_ble_eq_true rfl)
theorem WordNumber.beq (l : Label) : WordNumber.Statement (.beq l) := WordNumber.of_fields rfl (Nat.le_of_ble_eq_true rfl)
theorem WordNumber.bne (l : Label) : WordNumber.Statement (.bne l) := WordNumber.of_fields rfl (Nat.le_of_ble_eq_true rfl)
theorem WordNumber.bgt (l : Label) : WordNumber.Statement (.bgt l) := WordNumber.of_fields rfl (Nat.le_of_ble_eq_true rfl)
theorem WordNumber.blt (l : Label) : WordNumber.Statement (.blt l) := WordNumber.of_fields rfl (Nat.le_of_ble_eq_true rfl)
theorem WordNumber.bge (l : Label) : WordNumber.Statement (.bge l) := WordNumber.of_fields rfl (Nat.le_of_ble_eq_true rfl)
theorem WordNumber.ble (l : Label) : WordNumber.Statement (.ble l) := WordNumber.of_fields rfl (Nat.le_of_ble_eq_true rfl)
theorem WordNumber.bhi (l : Label) : WordNumber.Statement (.bhi l) := WordNumber.of_fields rfl (Nat.le_of_ble_eq_true rfl)
theorem WordNumber.blo (l : Label) : WordNumber.Statement (.blo l) := WordNumber.of_fields rfl (Nat.le_of_ble_eq_true rfl)
theorem WordNumber.bhs (l : Label) : WordNumber.Statement (.bhs l) := WordNumber.of_fields rfl (Nat.le_of_ble_eq_true rfl)
theorem WordNumber.bls (l : Label) : WordNumber.Statement (.bls l) := WordNumber.of_fields rfl (Nat.le_of_ble_eq_true rfl)
theorem WordNumber.bpl (l : Label) : WordNumber.Statement (.bpl l) := WordNumber.of_fields rfl (Nat.le_of_ble_eq_true rfl)
theorem WordNumber.bmi (l : Label) : WordNumber.Statement (.bmi l) := WordNumber.of_fields rfl (Nat.le_of_ble_eq_true rfl)
theorem WordNumber.bvs (l : Label) : WordNumber.Statement (.bvs l) := WordNumber.of_fields rfl (Nat.le_of_ble_eq_true rfl)
theorem WordNumber.bvc (l : Label) : WordNumber.Statement (.bvc l) := WordNumber.of_fields rfl (Nat.le_of_ble_eq_true rfl)
theorem WordNumber.call (l : Label) : WordNumber.Statement (.call l) := WordNumber.of_fields rfl (Nat.le_of_ble_eq_true rfl)
theorem WordNumber.ret : WordNumber.Statement (.ret) := WordNumber.of_fields rfl (Nat.le_of_ble_eq_true rfl)
theorem WordNumber.hlt : WordNumber.Statement (.hlt) := WordNumber.of_fields rfl (Nat.le_of_ble_eq_true rfl)
theorem WordNumber.nop : WordNumber.Statement (.nop) := WordNumber.of_fields rfl (Nat.le_of_ble_eq_true rfl)
theorem WordNumber.cmpReg (a : RegId) (r : RegId) : WordNumber.Statement (.cmpReg a r) := WordNumber.of_fields rfl (Nat.le_of_ble_eq_true rfl)
theorem WordNumber.cmpImm (a : RegId) (k : Byte) : WordNumber.Statement (.cmpImm a k) := WordNumber.of_fields rfl (Nat.le_of_ble_eq_true rfl)
theorem WordNumber.negReg (d : RegId) (r : RegId) : WordNumber.Statement (.negReg d r) := WordNumber.of_fields rfl (Nat.le_of_ble_eq_true rfl)
theorem WordNumber.negImm (d : RegId) (k : Byte) : WordNumber.Statement (.negImm d k) := WordNumber.of_fields rfl (Nat.le_of_ble_eq_true rfl)
theorem WordNumber.notReg (d : RegId) (r : RegId) : WordNumber.Statement (.notReg d r) := WordNumber.of_fields rfl (Nat.le_of_ble_eq_true rfl)
theorem WordNumber.notImm (d : RegId) (k : Byte) : WordNumber.Statement (.notImm d k) := WordNumber.of_fields rfl (Nat.le_of_ble_eq_true rfl)
theorem WordNumber.addReg (d : RegId) (a : RegId) (r : RegId) : WordNumber.Statement (.addReg d a r) := WordNumber.of_fields rfl (Nat.le_of_ble_eq_true rfl)
theorem WordNumber.addImm (d : RegId) (a : RegId) (k : Byte) : WordNumber.Statement (.addImm d a k) := WordNumber.of_fields rfl (Nat.le_of_ble_eq_true rfl)
theorem WordNumber.subReg (d : RegId) (a : RegId) (r : RegId) : WordNumber.Statement (.subReg d a r) := WordNumber.of_fields rfl (Nat.le_of_ble_eq_true rfl)
theorem WordNumber.subImm (d : RegId) (a : RegId) (k : Byte) : WordNumber.Statement (.subImm d a k) := WordNumber.of_fields rfl (Nat.le_of_ble_eq_true rfl)
theorem WordNumber.andReg (d : RegId) (a : RegId) (r : RegId) : WordNumber.Statement (.andReg d a r) := WordNumber.of_fields rfl (Nat.le_of_ble_eq_true rfl)
theorem WordNumber.andImm (d : RegId) (a : RegId) (k : Byte) : WordNumber.Statement (.andImm d a k) := WordNumber.of_fields rfl (Nat.le_of_ble_eq_true rfl)
theorem WordNumber.orReg (d : RegId) (a : RegId) (r : RegId) : WordNumber.Statement (.orReg d a r) := WordNumber.of_fields rfl (Nat.le_of_ble_eq_true rfl)
theorem WordNumber.orImm (d : RegId) (a : RegId) (k : Byte) : WordNumber.Statement (.orImm d a k) := WordNumber.of_fields rfl (Nat.le_of_ble_eq_true rfl)
theorem WordNumber.xorReg (d : RegId) (a : RegId) (r : RegId) : WordNumber.Statement (.xorReg d a r) := WordNumber.of_fields rfl (Nat.le_of_ble_eq_true rfl)
theorem WordNumber.xorImm (d : RegId) (a : RegId) (k : Byte) : WordNumber.Statement (.xorImm d a k) := WordNumber.of_fields rfl (Nat.le_of_ble_eq_true rfl)
theorem WordNumber.lslReg (d : RegId) (a : RegId) (r : RegId) : WordNumber.Statement (.lslReg d a r) := WordNumber.of_fields rfl (Nat.le_of_ble_eq_true rfl)
theorem WordNumber.lslImm (d : RegId) (a : RegId) (k : Byte) : WordNumber.Statement (.lslImm d a k) := WordNumber.of_fields rfl (Nat.le_of_ble_eq_true rfl)
theorem WordNumber.lsrReg (d : RegId) (a : RegId) (r : RegId) : WordNumber.Statement (.lsrReg d a r) := WordNumber.of_fields rfl (Nat.le_of_ble_eq_true rfl)
theorem WordNumber.lsrImm (d : RegId) (a : RegId) (k : Byte) : WordNumber.Statement (.lsrImm d a k) := WordNumber.of_fields rfl (Nat.le_of_ble_eq_true rfl)
theorem WordNumber.asrReg (d : RegId) (a : RegId) (r : RegId) : WordNumber.Statement (.asrReg d a r) := WordNumber.of_fields rfl (Nat.le_of_ble_eq_true rfl)
theorem WordNumber.asrImm (d : RegId) (a : RegId) (k : Byte) : WordNumber.Statement (.asrImm d a k) := WordNumber.of_fields rfl (Nat.le_of_ble_eq_true rfl)
theorem WordNumber.rolReg (d : RegId) (a : RegId) (r : RegId) : WordNumber.Statement (.rolReg d a r) := WordNumber.of_fields rfl (Nat.le_of_ble_eq_true rfl)
theorem WordNumber.rolImm (d : RegId) (a : RegId) (k : Byte) : WordNumber.Statement (.rolImm d a k) := WordNumber.of_fields rfl (Nat.le_of_ble_eq_true rfl)
theorem WordNumber.rorReg (d : RegId) (a : RegId) (r : RegId) : WordNumber.Statement (.rorReg d a r) := WordNumber.of_fields rfl (Nat.le_of_ble_eq_true rfl)
theorem WordNumber.rorImm (d : RegId) (a : RegId) (k : Byte) : WordNumber.Statement (.rorImm d a k) := WordNumber.of_fields rfl (Nat.le_of_ble_eq_true rfl)

end Sys2Proof.Laws
end

