-- ==== Sys2Proof/Laws/Step.lean ====
section
/-!
SUPPORT. Everything a step can answer (R81).
-/

namespace Sys2Proof.Machine

/-- A step that answers a next state executed the decoded instruction of a running core. -/
theorem step_next {s t : State} :
    step s = .next t ↔
      s.proc.halted = false ∧
      ∃ w i, s.code[s.proc.pc]? = some w ∧ decode w = .ok i ∧ exec i s = .next t := by
  unfold step State.fetch
  cases hh : s.proc.halted with
  | true => simp
  | false =>
    cases hc : s.code[s.proc.pc]? with
    | none => simp
    | some w =>
      cases hd : decode w with
      | error r => simp [hd]
      | ok i => simp [hd]

/-- Every way a step can stop or fail, in the order of R81. -/
theorem step_fault {s : State} {f : Fault} :
    step s = .fault f ↔
      (s.proc.halted = true ∧ f = .stoppedHalted) ∨
      (s.proc.halted = false ∧ s.code[s.proc.pc]? = none ∧ f = .stoppedPcOutOfRange) ∨
      (s.proc.halted = false ∧ ∃ w, s.code[s.proc.pc]? = some w ∧
        (((∃ r, decode w = .error r) ∧ f = .unsupportedInstruction w) ∨
          ∃ i, decode w = .ok i ∧ exec i s = .fault f)) := by
  unfold step State.fetch
  cases hh : s.proc.halted with
  | true => simp [eq_comm]
  | false =>
    cases hc : s.code[s.proc.pc]? with
    | none => simp [eq_comm]
    | some w =>
      cases hd : decode w with
      | error r => simp [hd, eq_comm]
      | ok i => simp [hd]

end Sys2Proof.Machine
end

