-- ==== Sys2Proof/Tests/Slice0.lean ====
section
/-!
SUPPORT. The model's own tests. Words are written out field by field from spec/30_encoding.md (R55 to R60,
`op_cond_rd_ra_i_k`) or copied from spec/; expected results are the vectors of spec/95_test_vectors.md, whose
row a docstring names, or are worked out by hand from the rule it names. The last part shows, for every
obligation with hypotheses, a concrete input that meets them.
-/

namespace Sys2Proof.Tests

open Sys2Proof.Machine

/-! ## Helpers -/

/-- All four flags set, so that a test sees each flag cleared. -/
def allSet : Flags := { z := true, c := true, n := true, v := true }

/-- The flags in the spec's order `Z C N V`. -/
def zcnv (z c n v : Bool) : Flags := { z := z, c := c, n := n, v := v }

/-- The reset state with `x[1] = a`, `x[2] = b`, every flag set. -/
def start (a b : Byte) : State :=
  { State.reset with proc := { Proc.reset with x := (Proc.reset.x.set 1 a).set 2 b, flags := allSet } }

/-- The outcome is a next state that passes the check. -/
def nextWith (o : Host.Outcome State Fault Refusal) (check : State → Bool) : Bool :=
  match o with
  | .next t => check t
  | .fault _ => false
  | .refused _ => false

/-- The outcome is this fault. -/
def faultsWith (o : Host.Outcome State Fault Refusal) (f : Fault) : Bool :=
  match o with
  | .next _ => false
  | .fault g => g == f
  | .refused _ => false

/-- `i` on `x[1] = a`, `x[2] = b` completes with `x[3] = r` and these flags. -/
def gives (i : Instr) (a b r : Byte) (f : Flags) : Bool :=
  nextWith (exec i (start a b)) fun t => t.proc.reg 3 == r && t.proc.flags == f && t.proc.pc == 1

/-- The word of a step from `p`, with the label table of section 2.5. -/
def stepFrom (p : Proc) (w : Nat) : Host.Outcome State Fault Refusal :=
  step ({ State.reset with proc := p, labels := [(1, 10), (2, 4), (3, 4000)] }.withFetchWord 32 w)

/-- The step takes `p` to `q`. -/
def takes (p : Proc) (w : Nat) (q : Proc) : Bool := nextWith (stepFrom p w) fun t => t.proc == q

/-! ## Decoding -/

/-- Load, store, move: formats LD, ST and RV of R60, opcodes 0 to 2 (R56). -/
theorem test_decode_load_store_move :
    decodeTableWord 32 0b00000_0000_101_000_0_0000000000000110 = some (.ldrInd 5 6) ∧
    decodeTableWord 32 0b00000_0000_101_000_1_0000000011111111 = some (.ldrAbs 5 255) ∧
    decodeTableWord 32 0b00001_0000_000_011_0_0000000000000110 = some (.strInd 6 3) ∧
    decodeTableWord 32 0b00001_0000_000_011_1_0000000000101010 = some (.strAbs 42 3) ∧
    decodeTableWord 32 0b00010_0000_101_000_0_0000000000000110 = some (.movReg 5 6) ∧
    decodeTableWord 32 0b00010_0000_101_000_1_0000000011001000 = some (.movImm 5 200) := by
  decide

/-- Branches: format B, opcode 3 with each condition number of R57 and a label in all sixteen bits of `k` (R59). -/
theorem test_decode_branches :
    decodeTableWord 32 0b00011_0000_000_000_0_1000000000000000 = some (.bal 32768) ∧
    decodeTableWord 32 0b00011_0001_000_000_0_1000000000000001 = some (.beq 32769) ∧
    decodeTableWord 32 0b00011_0010_000_000_0_1000000000000010 = some (.bne 32770) ∧
    decodeTableWord 32 0b00011_0011_000_000_0_1000000000000011 = some (.bgt 32771) ∧
    decodeTableWord 32 0b00011_0100_000_000_0_1000000000000100 = some (.blt 32772) ∧
    decodeTableWord 32 0b00011_0101_000_000_0_1000000000000101 = some (.bge 32773) ∧
    decodeTableWord 32 0b00011_0110_000_000_0_1000000000000110 = some (.ble 32774) ∧
    decodeTableWord 32 0b00011_0111_000_000_0_1000000000000111 = some (.bhi 32775) ∧
    decodeTableWord 32 0b00011_1000_000_000_0_1000000000001000 = some (.blo 32776) ∧
    decodeTableWord 32 0b00011_1001_000_000_0_1000000000001001 = some (.bhs 32777) ∧
    decodeTableWord 32 0b00011_1010_000_000_0_1000000000001010 = some (.bls 32778) ∧
    decodeTableWord 32 0b00011_1011_000_000_0_1000000000001011 = some (.bpl 32779) ∧
    decodeTableWord 32 0b00011_1100_000_000_0_1000000000001100 = some (.bmi 32780) ∧
    decodeTableWord 32 0b00011_1101_000_000_0_1000000000001101 = some (.bvs 32781) ∧
    decodeTableWord 32 0b00011_1110_000_000_0_1111111111111111 = some (.bvc 65535) := by
  decide

/-- Call, return and system: formats L and Z, opcodes 4 to 7. -/
theorem test_decode_call_ret_hlt_nop :
    decodeTableWord 32 0b00100_0000_000_000_0_1000000000000001 = some (.call 0x8001) ∧
    decodeTableWord 32 0b00101_0000_000_000_0_0000000000000000 = some (.ret) ∧
    decodeTableWord 32 0b00110_0000_000_000_0_0000000000000000 = some (.hlt) ∧
    decodeTableWord 32 0b00111_0000_000_000_0_0000000000000000 = some (.nop) := by
  decide

/-- Compare, negate, complement: formats CV and RV, opcodes 8 to 10. -/
theorem test_decode_compare_unary :
    decodeTableWord 32 0b01000_0000_000_011_0_0000000000000110 = some (.cmpReg 3 6) ∧
    decodeTableWord 32 0b01000_0000_000_011_1_0000000000001010 = some (.cmpImm 3 10) ∧
    decodeTableWord 32 0b01001_0000_101_000_0_0000000000000110 = some (.negReg 5 6) ∧
    decodeTableWord 32 0b01001_0000_101_000_1_0000000010000000 = some (.negImm 5 128) ∧
    decodeTableWord 32 0b01010_0000_101_000_0_0000000000000110 = some (.notReg 5 6) ∧
    decodeTableWord 32 0b01010_0000_101_000_1_0000000000000001 = some (.notImm 5 1) := by
  decide

/-- Three-operand arithmetic and logic: format RRV, opcodes 11 to 15. -/
theorem test_decode_arith_logic :
    decodeTableWord 32 0b01011_0000_101_011_0_0000000000000110 = some (.addReg 5 3 6) ∧
    decodeTableWord 32 0b01011_0000_101_011_1_0000000011111110 = some (.addImm 5 3 254) ∧
    decodeTableWord 32 0b01100_0000_101_011_0_0000000000000110 = some (.subReg 5 3 6) ∧
    decodeTableWord 32 0b01100_0000_101_011_1_0000000011111110 = some (.subImm 5 3 254) ∧
    decodeTableWord 32 0b01101_0000_101_011_0_0000000000000110 = some (.andReg 5 3 6) ∧
    decodeTableWord 32 0b01101_0000_101_011_1_0000000011111110 = some (.andImm 5 3 254) ∧
    decodeTableWord 32 0b01110_0000_101_011_0_0000000000000110 = some (.orReg 5 3 6) ∧
    decodeTableWord 32 0b01110_0000_101_011_1_0000000011111110 = some (.orImm 5 3 254) ∧
    decodeTableWord 32 0b01111_0000_101_011_0_0000000000000110 = some (.xorReg 5 3 6) ∧
    decodeTableWord 32 0b01111_0000_101_011_1_0000000011111110 = some (.xorImm 5 3 254) := by
  decide

/-- Shifts and rotates: format RRV, opcodes 16 to 20. -/
theorem test_decode_shifts :
    decodeTableWord 32 0b10000_0000_101_011_0_0000000000000110 = some (.lslReg 5 3 6) ∧
    decodeTableWord 32 0b10000_0000_101_011_1_0000000011111110 = some (.lslImm 5 3 254) ∧
    decodeTableWord 32 0b10001_0000_101_011_0_0000000000000110 = some (.lsrReg 5 3 6) ∧
    decodeTableWord 32 0b10001_0000_101_011_1_0000000011111110 = some (.lsrImm 5 3 254) ∧
    decodeTableWord 32 0b10010_0000_101_011_0_0000000000000110 = some (.asrReg 5 3 6) ∧
    decodeTableWord 32 0b10010_0000_101_011_1_0000000011111110 = some (.asrImm 5 3 254) ∧
    decodeTableWord 32 0b10011_0000_101_011_0_0000000000000110 = some (.rolReg 5 3 6) ∧
    decodeTableWord 32 0b10011_0000_101_011_1_0000000011111110 = some (.rolImm 5 3 254) ∧
    decodeTableWord 32 0b10100_0000_101_011_0_0000000000000110 = some (.rorReg 5 3 6) ∧
    decodeTableWord 32 0b10100_0000_101_011_1_0000000011111110 = some (.rorImm 5 3 254) := by
  decide

/-- The worked words of spec/95_test_vectors.md section 2.7 that decode. -/
theorem test_decode_section_2_7 :
    decodeTableWord 32 0x00000000 = some (.ldrInd 0 0) ∧
    decodeTableWord 32 0x58320002 = some (.addReg 3 1 2) ∧
    decodeTableWord 32 0x58330002 = some (.addImm 3 1 2) ∧
    decodeTableWord 32 0x583300FF = some (.addImm 3 1 255) ∧
    decodeTableWord 32 0x58670007 = some (.addImm 6 3 7) ∧
    decodeTableWord 32 0x1F00FFFF = some (.bvc 65535) := by
  decide

/-- The unsupported words of the same section, each for its own reason. -/
theorem test_decode_refused_2_7 :
    (Fields.ofWord 0x58E70007).cond = 1 ∧ decodeTableWord 32 0x58E70007 = none ∧
    decodeTableWord 32 0x1F800000 = none ∧ decodeTableWord 32 0xA8000000 = none ∧
    decodeTableWord 32 0xFFFFFFFF = none ∧ decodeTableWord 32 0x38000001 = none ∧
    decodeTableWord 32 0x58B20002 = none ∧ decodeTableWord 32 0x58330102 = none ∧
    decodeTableWord 32 0x58320008 = none ∧ decodeTableWord 32 0x18010000 = none ∧
    decodeTableWord 32 0x10120001 = none ∧ decodeTableWord 32 0x40100001 = none := by
  decide

/-- The decoder names the reason. -/
theorem test_decode_reasons :
    decode 0xA8000000 = .error .reservedOpcode ∧ decode 0x1F800000 = .error .reservedCondition ∧
    decode 0x58B20002 = .error .unusedField ∧ decode 0x58320008 = .error .operandBits := by
  exact ⟨rfl, rfl, rfl, rfl⟩

/-- Words of spec/95_test_vectors.md sections 2.1 and 3 come out of the encoder. -/
theorem test_encode_worked_words :
    encode (.strAbs 0x10 2) = 0x08050010 ∧ encode (.subImm 1 1 1) = 0x60130001 ∧
    encode (.lslImm 0 0 1) = 0x80010001 ∧ encode (.rorImm 5 3 4) = 0xA0570004 ∧
    encode (.asrImm 6 1 2) = 0x90630002 ∧ encode (.notReg 7 4) = 0x50700004 ∧
    encode (.cmpReg 1 2) = 0x40020002 ∧ encode (.bhi 2) = 0x1B800002 := by
  decide

/-! ## Well-formed Programs: an ill-formed term for each check -/

/-- A Program that passes every check (spec/95_test_vectors.md, program P2's first words). -/
theorem test_programWf_accepts : programWf [0x10110020, 0x20000001, 0x30000000] [(1, 2)] = true := by
  decide

/-- An unsupported word (R204 (a)). -/
theorem test_programWf_refuses_unsupported_word :
    wordSupported 0xA8000000 = false ∧ programWf [0x10110020, 0xA8000000] [] = false := by
  decide

/-- A `call` of an absent label (R204 (b)). -/
theorem test_programWf_refuses_absent_call_label :
    wordResolved [(1, 2)] 0x20000009 = false ∧ programWf [0x20000009] [(1, 2)] = false := by
  decide

/-- A branch, taken or not, to an absent label (R204 (b)). -/
theorem test_programWf_refuses_absent_branch_label :
    wordResolved [(1, 2)] 0x19000009 = false ∧ programWf [0x19000009] [(1, 2)] = false := by
  decide

/-- A label with two entries (R25). -/
theorem test_programWf_refuses_two_entries :
    labelsDistinct [(1, 2), (3, 0), (1, 4)] = false ∧ programWf [] [(1, 2), (3, 0), (1, 4)] = false := by
  decide

/-! ## Load, store, move (section 2.1) -/

/-- `p` of section 2.1: `x[1] = 50`, `x[4] = 0xAB`, `x[5] = 7`, `mem[7] = 0x99`, `mem[50] = 123`. -/
def memProc : Proc :=
  { Proc.reset with x := #v[0, 50, 0, 0, 0xAB, 7, 0, 0], mem := [(7, 0x99), (50, 123)], flags := allSet }

/-- M2, and M3 with the address read from the register that is written. -/
theorem test_ldrInd :
    takes memProc 0x00200001 { memProc with x := memProc.x.set 2 123, pc := 1 } = true ∧
    takes memProc 0x00500005 { memProc with x := memProc.x.set 5 0x99, pc := 1 } = true := by
  decide

/-- M1, and M4: memory nothing has written reads 0, at the last address too. -/
theorem test_ldrAbs :
    takes memProc 0x00210032 { memProc with x := memProc.x.set 2 123, pc := 1 } = true ∧
    takes memProc 0x001100FF { memProc with x := memProc.x.set 1 0, pc := 1 } = true := by
  decide

/-- M7, and a store of 0, which leaves nothing listed. -/
theorem test_strInd :
    takes memProc 0x08080005 { memProc with mem := [(7, 0xAB), (50, 123)], pc := 1 } = true ∧
    takes memProc 0x08000005 { memProc with mem := [(50, 123)], pc := 1 } = true := by
  decide

/-- M6, at the last address, and a store between two listed bytes (R111). -/
theorem test_strAbs :
    takes memProc 0x080900FF { memProc with mem := [(7, 0x99), (50, 123), (255, 0xAB)], pc := 1 } = true ∧
    takes memProc 0x08090010 { memProc with mem := [(7, 0x99), (16, 0xAB), (50, 123)], pc := 1 } = true := by
  decide

/-- M9 and M12. -/
theorem test_movReg :
    takes memProc 0x10000001 { memProc with x := memProc.x.set 0 50, pc := 1 } = true ∧
    takes memProc 0x10600006 { memProc with pc := 1 } = true := by
  decide

/-- M10 and M11: no flag written. -/
theorem test_movImm :
    takes memProc 0x100100C8 { memProc with x := memProc.x.set 0 0xC8, pc := 1 } = true ∧
    takes memProc 0x10410000 { memProc with x := memProc.x.set 4 0, pc := 1 } = true := by
  decide

/-! ## Arithmetic and logic (section 2.2) -/

/-- Vectors of `add`. -/
theorem test_addReg :
    gives (.addReg 3 1 2) 0x7F 0x01 0x80 (zcnv false false true true) = true ∧
    gives (.addReg 3 1 2) 0xFF 0xFF 0xFE (zcnv false true true false) = true := by
  decide

/-- Vectors of `add`, from the immediate. -/
theorem test_addImm :
    gives (.addImm 3 1 0x80) 0x80 0x80 0x00 (zcnv true true false true) = true ∧
    gives (.addImm 3 1 0x0A) 0x05 0x0A 0x0F (zcnv false false false false) = true := by
  decide

/-- Vectors of `sub`. -/
theorem test_subReg :
    gives (.subReg 3 1 2) 0x80 0x01 0x7F (zcnv false true false true) = true ∧
    gives (.subReg 3 1 2) 0x05 0x00 0x05 (zcnv false false false false) = true := by
  decide

/-- Vectors of `sub`, from the immediate. -/
theorem test_subImm :
    gives (.subImm 3 1 0x80) 0x80 0x80 0x00 (zcnv true true false true) = true ∧
    gives (.subImm 3 1 0x05) 0x03 0x05 0xFE (zcnv false false true false) = true := by
  decide

/-- Vectors of `and`. -/
theorem test_andReg :
    gives (.andReg 3 1 2) 0xF0 0x3C 0x30 (zcnv false false false false) = true := by
  decide

/-- Vectors of `and`, from the immediate. -/
theorem test_andImm :
    gives (.andImm 3 1 0xFF) 0xFF 0xFF 0xFF (zcnv false false true false) = true := by
  decide

/-- Vectors of `or`. -/
theorem test_orReg :
    gives (.orReg 3 1 2) 0x80 0x80 0x80 (zcnv false false true false) = true := by
  decide

/-- Vectors of `or`, from the immediate. -/
theorem test_orImm :
    gives (.orImm 3 1 0x0F) 0xF0 0x0F 0xFF (zcnv false false true false) = true := by
  decide

/-- Vectors of `xor`. -/
theorem test_xorReg :
    gives (.xorReg 3 1 2) 0x80 0x80 0x00 (zcnv true false false true) = true := by
  decide

/-- Vectors of `xor`, from the immediate. -/
theorem test_xorImm :
    gives (.xorImm 3 1 0x81) 0xC0 0x81 0x41 (zcnv false false false true) = true := by
  decide

/-- `cmp` gives the flags of the `sub` row and writes no register. -/
theorem test_cmpReg :
    gives (.cmpReg 1 2) 0x7F 0x80 0 (zcnv false false true false) = true ∧
    gives (.cmpReg 1 2) 0x00 0x00 0 (zcnv true false false false) = true := by
  decide

/-- The `cmp` example of section 2.2 and an equal pair. -/
theorem test_cmpImm :
    gives (.cmpImm 1 10) 5 0 0 (zcnv false false true false) = true ∧
    gives (.cmpImm 1 5) 5 0 0 (zcnv true true false false) = true := by
  decide

/-- Vectors of `neg`: the fixed point 0x80. -/
theorem test_negReg :
    gives (.negReg 3 2) 0 0x80 0x80 (zcnv false false true false) = true := by
  decide

/-- Vectors of `neg`, from the immediate: the fixed point 0. -/
theorem test_negImm :
    gives (.negImm 3 0) 7 7 0 (zcnv true false false false) = true ∧
    gives (.negImm 3 255) 7 7 1 (zcnv false false false false) = true := by
  decide

/-- Vectors of `not`. -/
theorem test_notReg :
    gives (.notReg 3 2) 0 0xFF 0 (zcnv true false false false) = true := by
  decide

/-- Vectors of `not`, from the immediate. -/
theorem test_notImm :
    gives (.notImm 3 0x55) 7 7 0xAA (zcnv false false true false) = true := by
  decide

/-- Same register in every position (R208): `add r1, r1, r1` with `x[1] = 0x90`. -/
theorem test_add_same_register :
    takes { Proc.reset with x := #v[0, 0x90, 0, 0, 0, 0, 0, 0] } 0x58120001
      { Proc.reset with
        x := #v[0, 0x20, 0, 0, 0, 0, 0, 0], flags := zcnv false true false true, pc := 1 } = true := by
  decide

/-! ## Shifts and rotates (section 2.3) -/

/-- Vectors of `lsl`. -/
theorem test_lslReg :
    gives (.lslReg 3 1 2) 0x40 0x01 0x80 (zcnv false false true true) = true := by
  decide

/-- Vectors of `lsl`, from the immediate. -/
theorem test_lslImm :
    gives (.lslImm 3 1 0x80) 0x80 0x80 0x00 (zcnv true false false true) = true ∧
    gives (.lslImm 3 1 0x08) 0xFF 0x08 0x00 (zcnv true false false false) = true := by
  decide

/-- Vectors of `lsr`. -/
theorem test_lsrReg :
    gives (.lsrReg 3 1 2) 0x80 0x07 0x01 (zcnv false false false false) = true := by
  decide

/-- Vectors of `lsr`, from the immediate. -/
theorem test_lsrImm :
    gives (.lsrImm 3 1 0x80) 0x80 0x80 0x00 (zcnv true false false true) = true ∧
    gives (.lsrImm 3 1 0x08) 0xFF 0x08 0x00 (zcnv true false false false) = true := by
  decide

/-- Vectors of `asr`. -/
theorem test_asrReg :
    gives (.asrReg 3 1 2) 0x80 0x01 0xC0 (zcnv false false true false) = true := by
  decide

/-- Vectors of `asr`, from the immediate. -/
theorem test_asrImm :
    gives (.asrImm 3 1 0xC8) 0x80 0xC8 0xFF (zcnv false false true false) = true ∧
    gives (.asrImm 3 1 0x08) 0x7F 0x08 0x00 (zcnv true false false false) = true := by
  decide

/-- Vectors of `rol`. -/
theorem test_rolReg :
    gives (.rolReg 3 1 2) 0x69 0x02 0xA5 (zcnv false false true true) = true := by
  decide

/-- Vectors of `rol`, from the immediate. -/
theorem test_rolImm :
    gives (.rolImm 3 1 0xFF) 0x80 0xFF 0x40 (zcnv false false false true) = true ∧
    gives (.rolImm 3 1 0x09) 0x81 0x09 0x03 (zcnv false false false false) = true := by
  decide

/-- Vectors of `ror`. -/
theorem test_rorReg :
    gives (.rorReg 3 1 2) 0x01 0x01 0x80 (zcnv false false true true) = true := by
  decide

/-- Vectors of `ror`, from the immediate. -/
theorem test_rorImm :
    gives (.rorImm 3 1 0x09) 0x81 0x09 0xC0 (zcnv false false true false) = true ∧
    gives (.rorImm 3 1 0x81) 0x02 0x81 0x01 (zcnv false false false false) = true := by
  decide

/-! ## Control transfer (sections 2.4 and 2.5), `hlt` and `nop` -/

/-- A column of section 2.4 as the numbers `8 Z + 4 C + 2 N + V` of the rows where the condition holds. -/
def holdsIn (cc : Cond) : List Nat :=
  (List.range 16).filter fun r =>
    condHolds cc (zcnv (r / 8 % 2 == 1) (r / 4 % 2 == 1) (r / 2 % 2 == 1) (r % 2 == 1))

/-- The truth table of section 2.4, column by column. -/
theorem test_condition_table :
    holdsIn .al = [0, 1, 2, 3, 4, 5, 6, 7, 8, 9, 10, 11, 12, 13, 14, 15] ∧
    holdsIn .eq = [8, 9, 10, 11, 12, 13, 14, 15] ∧
    holdsIn .ne = [0, 1, 2, 3, 4, 5, 6, 7] ∧
    holdsIn .gt = [0, 3, 4, 7] ∧
    holdsIn .lt = [1, 2, 5, 6, 9, 10, 13, 14] ∧
    holdsIn .ge = [0, 3, 4, 7, 8, 11, 12, 15] ∧
    holdsIn .le = [1, 2, 5, 6, 8, 9, 10, 11, 12, 13, 14, 15] ∧
    holdsIn .hi = [4, 5, 6, 7] ∧
    holdsIn .lo = [0, 1, 2, 3, 8, 9, 10, 11] ∧
    holdsIn .hs = [4, 5, 6, 7, 12, 13, 14, 15] ∧
    holdsIn .ls = [0, 1, 2, 3, 8, 9, 10, 11, 12, 13, 14, 15] ∧
    holdsIn .pl = [0, 1, 4, 5, 8, 9, 12, 13] ∧
    holdsIn .mi = [2, 3, 6, 7, 10, 11, 14, 15] ∧
    holdsIn .vs = [1, 3, 5, 7, 9, 11, 13, 15] ∧
    holdsIn .vc = [0, 2, 4, 6, 8, 10, 12, 14] := by
  decide

/-- The branch to label 1 (pc 10) from pc 4 with these flags ends at this pc, nothing else changed. -/
def branches (b : Label → Instr) (f : Flags) (pc : Pc) : Bool :=
  nextWith (exec (b 1) { State.reset with
      proc := { Proc.reset with flags := f, pc := 4 }, labels := [(1, 10)] })
    fun t => t.proc == { Proc.reset with flags := f, pc := pc }

theorem test_bal :
    branches .bal (zcnv true false false false) 10 = true := by
  decide

theorem test_beq :
    branches .beq (zcnv true true false false) 10 = true ∧
    branches .beq (zcnv false true false false) 5 = true := by
  decide

theorem test_bne :
    branches .bne (zcnv false true false false) 10 = true ∧
    branches .bne (zcnv true true false false) 5 = true := by
  decide

theorem test_bgt :
    branches .bgt (zcnv false true false false) 10 = true ∧
    branches .bgt (zcnv false true false true) 5 = true := by
  decide

theorem test_blt :
    branches .blt (zcnv true false false true) 10 = true ∧
    branches .blt (zcnv true false false false) 5 = true := by
  decide

theorem test_bge :
    branches .bge (zcnv true false false false) 10 = true ∧
    branches .bge (zcnv true false false true) 5 = true := by
  decide

theorem test_ble :
    branches .ble (zcnv true false true false) 10 = true ∧
    branches .ble (zcnv false false false false) 5 = true := by
  decide

theorem test_bhi :
    branches .bhi (zcnv false true true false) 10 = true ∧
    branches .bhi (zcnv false false true false) 5 = true := by
  decide

theorem test_blo :
    branches .blo (zcnv true false false false) 10 = true ∧
    branches .blo (zcnv true true false false) 5 = true := by
  decide

theorem test_bhs :
    branches .bhs (zcnv true true false false) 10 = true ∧
    branches .bhs (zcnv true false false false) 5 = true := by
  decide

theorem test_bls :
    branches .bls (zcnv true false true false) 10 = true ∧
    branches .bls (zcnv false true true false) 5 = true := by
  decide

theorem test_bpl :
    branches .bpl (zcnv true false false false) 10 = true ∧
    branches .bpl (zcnv true false true false) 5 = true := by
  decide

theorem test_bmi :
    branches .bmi (zcnv true false true false) 10 = true ∧
    branches .bmi (zcnv true false false false) 5 = true := by
  decide

theorem test_bvs :
    branches .bvs (zcnv true false false true) 10 = true ∧
    branches .bvs (zcnv true false false false) 5 = true := by
  decide

theorem test_bvc :
    branches .bvc (zcnv true false false false) 10 = true ∧
    branches .bvc (zcnv true false false true) 5 = true := by
  decide

/-- B4: an untaken branch does not look its label up. B5: a taken one to an absent label fails. -/
theorem test_branch_absent_label :
    nextWith (exec (.bne 9) (start 0 0)) (fun t => t.proc.pc == 1) = true ∧
    faultsWith (exec (.bal 9) (start 0 0)) (.unknownLabel 9) = true := by
  decide

/-- B6: a branch to itself. -/
theorem test_branch_to_itself :
    takes { Proc.reset with pc := 4 } 0x18000002 { Proc.reset with pc := 4 } = true := by
  decide

/-- B8 and B9: the return point is pushed on top, the last entry. -/
theorem test_call :
    takes Proc.reset 0x20000001 { Proc.reset with pc := 10, cs := [1] } = true ∧
    takes { Proc.reset with pc := 7, cs := [1] } 0x20000002 { Proc.reset with pc := 4, cs := [1, 8] } = true := by
  decide

/-- B10, and `StackOverflow` of a finite stack that is full (R185). -/
theorem test_call_failures :
    faultsWith (exec (.call 9) (start 0 0)) (.unknownLabel 9) = true ∧
    faultsWith (exec (.call 1) { start 0 0 with labels := [(1, 10)], params := { stackDepth := some 0, histDepth := none } })
      .stackOverflow = true := by
  decide

/-- B11, B12 and B13. -/
theorem test_ret :
    takes { Proc.reset with pc := 12, cs := [30] } 0x28000000 { Proc.reset with pc := 30 } = true ∧
    takes { Proc.reset with pc := 12, cs := [1, 8] } 0x28000000 { Proc.reset with pc := 8, cs := [1] } = true ∧
    takes { Proc.reset with pc := 12 } 0x28000000 { Proc.reset with pc := 13 } = true := by
  decide

/-- S1. -/
theorem test_hlt :
    takes { Proc.reset with pc := 5 } 0x30000000 { Proc.reset with pc := 6, halted := true } = true := by
  decide

/-- S2. -/
theorem test_nop : takes { Proc.reset with pc := 5 } 0x38000000 { Proc.reset with pc := 6 } = true := by
  decide

/-! ## Apply and invert (section 2.6) -/

/-- `P` of section 2.6. -/
def vecP : Proc :=
  { Proc.reset with
    x := #v[0, 0, 0, 7, 0, 0, 0, 0], mem := [(50, 123)], flags := zcnv true false true false
    pc := 20, cs := [5, 9] }

/-- A1, A2, A4, A5 and A6. -/
theorem test_apply_fields :
    apply none vecP {} = .ok { vecP with pc := 21 } ∧
    apply none vecP { flags := some { c := some true } }
      = .ok { vecP with flags := zcnv true true true false, pc := 21 } ∧
    apply none vecP { reg := some (3, 0xFE) }
      = .ok { vecP with x := #v[0, 0, 0, 0xFE, 0, 0, 0, 0], pc := 21 } ∧
    apply none vecP { write := some (50, 99) } = .ok { vecP with mem := [(50, 99)], pc := 21 } ∧
    apply none vecP { write := some (255, 1) }
      = .ok { vecP with mem := [(50, 123), (255, 1)], pc := 21 } := by
  exact ⟨rfl, rfl, rfl, rfl, rfl⟩

/-- A8 to A11 and A13. -/
theorem test_apply_stack_and_failure :
    apply none vecP { write := some (256, 1), reg := some (3, 0) } = .error (.outOfRange 256) ∧
    apply none vecP { stack := some (.push 77) } = .ok { vecP with cs := [5, 9, 77], pc := 21 } ∧
    apply none vecP { stack := some .pop } = .ok { vecP with cs := [5], pc := 21 } ∧
    apply none Proc.reset { stack := some .pop } = .ok { Proc.reset with pc := 1 } ∧
    apply none vecP
        { jump := some 20, stack := some .pop, reg := some (3, 1), flags := some { n := some false } }
      = .ok { vecP with
          x := #v[0, 0, 0, 1, 0, 0, 0, 0], flags := zcnv true false false false, cs := [5] } := by
  exact ⟨rfl, rfl, rfl, rfl, rfl⟩

/-- I1 to I6. -/
theorem test_invert_fields :
    invert vecP {} = .ok { jump := some 20 } ∧
    invert vecP { flags := some { c := some true } }
      = .ok { flags := some { c := some false }, jump := some 20 } ∧
    invert vecP { reg := some (3, 0xFE), flags := some (zcnv false true true false).all }
      = .ok { reg := some (3, 7), flags := some vecP.flags.all, jump := some 20 } ∧
    invert vecP { write := some (50, 99) } = .ok { write := some (50, 123), jump := some 20 } ∧
    invert vecP { write := some (256, 1) } = .error (.outOfRange 256) ∧
    invert vecP { jump := some 3 } = .ok { jump := some 20 } := by
  exact ⟨rfl, rfl, rfl, rfl, rfl, rfl⟩

/-- I7 to I12. -/
theorem test_invert_stack_and_halt :
    invert vecP { jump := some 10, stack := some (.push 21) }
      = .ok { jump := some 20, stack := some .pop } ∧
    invert vecP { jump := some 9, stack := some .pop }
      = .ok { jump := some 20, stack := some (.push 9) } ∧
    invert Proc.reset { stack := some .pop } = .ok { jump := some 0 } ∧
    invert vecP { halt := some true } = .ok { halt := some false, jump := some 20 } ∧
    invert vecP { halt := some false } = .ok { jump := some 20 } ∧
    invert { vecP with halted := true } { halt := some true }
      = .ok { halt := some false, jump := some 20 } := by
  exact ⟨rfl, rfl, rfl, rfl, rfl, rfl⟩

/-! ## Stops, failures, reset and undo (section 2.8, program P5) -/

/-- X1, X2 and X8, X3, X4. -/
theorem test_stops :
    faultsWith (step { start 0 0 with code := [0x38000000], proc := { Proc.reset with halted := true } })
      .stoppedHalted = true ∧
    faultsWith (step State.reset) .stoppedPcOutOfRange = true ∧
    faultsWith (step { State.reset with proc := { Proc.reset with halted := true } }) .stoppedHalted = true ∧
    faultsWith (step { State.reset with code := [0xA8000000] }) (.unsupportedInstruction 0xA8000000)
      = true := by
  decide

/-- X2 and X7: the request leaves the state and repeats; the status codes of section 2.8. -/
theorem test_request_reports :
    State.reset.request = { State.reset with report := some .stoppedPcOutOfRange } ∧
    State.reset.request.request = State.reset.request ∧
    statusCode State.reset.request.report = 6 ∧ statusCode (some .stoppedHalted) = 5 ∧
    statusCode (some (.unsupportedInstruction 0)) = 3 ∧ statusCode (some (.unknownLabel 9)) = 2 ∧
    statusCode (some (.outOfRange 256)) = 1 := by
  decide

/-- The last step of program P5, from the state before it, and its undo. -/
theorem test_undo_after_step :
    nextWith (step ({ start 5 0 with proc := { (start 5 0).proc with flags := zcnv false false false false } }.withFetchWord
        32 0x60130001))
      (fun t => t.proc.reg 1 == 4 && t.proc.flags == zcnv false true false false &&
        nextWith t.undo (fun u => u.proc == { (start 5 0).proc with flags := zcnv false false false false } &&
          u.history == [])) = true := by
  decide

/-- Undo on an empty history does nothing (R103). -/
theorem test_undo_empty : nextWith State.reset.undo (fun t => t == State.reset) = true := by decide

/-- A host reset clears the Processor State and keeps the Program (R202). -/
theorem test_hostReset :
    ({ start 1 2 with code := [0x38000000], labels := [(1, 0)], report := some .stackOverflow } : State).hostReset
      = { State.reset with code := [0x38000000], labels := [(1, 0)] } := by
  decide

/-- A placed word runs next, from a core that is halted and whose program ends before the pc too. -/
theorem test_withFetchWord :
    nextWith (step ({ State.reset with
        proc := { Proc.reset with pc := 2, halted := true } }.withFetchWord 32 0x20000007))
      (fun t => t.proc.pc == 2 && t.proc.cs == [3]) = true := by
  decide

/-! ## Witnesses: concrete inputs that meet the hypotheses of each obligation that has some -/

/-- A state inside a run of a `call`, `ret`, `hlt` program with finite stack and history. -/
def running : State :=
  { State.reset with
    proc := { Proc.reset with mem := [(255, 1)], pc := 1 }
    code := [0x38000000, 0x20000001, 0x30000000, 0x28000000]
    labels := [(1, 3)]
    params := { stackDepth := some 1, histDepth := some 1 }
    history := [({ Proc.reset with mem := [(255, 1)] }, {})] }

/-- The state after `running`'s `call`: its one stack place is taken. -/
def called : State :=
  running.stepped { running.proc with pc := 3, cs := [2] } { jump := some 3, stack := some (.push 2) }

theorem witness_running_Inv : running.Inv where
  wf := rfl
  stack := by intro d hd; cases hd; decide
  bounded := by intro d hd; cases hd; decide
  chain := ⟨⟨rfl, by intro d hd; cases hd; decide, rfl, rfl⟩, trivial⟩

theorem witness_running_steps : step running = .next called := rfl

theorem witness_called_Inv : called.Inv where
  wf := rfl
  stack := by intro d hd; cases hd; decide
  bounded := by intro d hd; cases hd; decide
  chain := ⟨⟨rfl, by intro d hd; cases hd; decide, rfl, rfl⟩, trivial⟩

/-- WellFormedProgramSteps, StepRunsTheDecodedInstruction: a well-formed Program, a running core, a word. -/
theorem witness_WellFormedProgram :
    programWf running.code running.labels = true ∧
    ({ running with params := Config.Params.default } : State).params.stackDepth = none ∧
    running.proc.halted = false ∧ running.proc.pc < running.code.length ∧
    running.code[running.proc.pc]? = some 0x20000001 ∧ decode 0x20000001 = .ok (.call 1) :=
  ⟨rfl, rfl, rfl, by decide, rfl, rfl⟩

/-- EncodeOfDecodeIsTheWord; OpcodeMapRowsAreExact, both ways. -/
theorem witness_decoded_word :
    decode 0x58E10000 = .error .unusedField ∧ decode 0x58610000 = .ok (.addImm 6 0 0) ∧
    (0x58610000 : Word) &&& (mapRow (.addImm 6 0 0)).2 = (mapRow (.addImm 6 0 0)).1 ∧
    (0x58E10000 : Word) &&& (mapRow (.addImm 6 0 0)).2 ≠ (mapRow (.addImm 6 0 0)).1 :=
  ⟨rfl, rfl, rfl, by decide⟩

/-- ReservedNumbersAreRefused: each clause at the ends of its range. -/
theorem witness_ReservedNumbers :
    (0xA8000000 : Nat) ≤ (0xA8000000 : Word).toNat ∧ (0xA8000000 : Nat) ≤ (0xFFFFFFFF : Word).toNat ∧
    (0x1F800000 : Nat) ≤ (0x1F800000 : Word).toNat ∧ (0x1F80FFFF : Word).toNat ≤ 0x1F80FFFF := by
  decide

/-- UnusedBitsAreRefused: fields that decode, of every opcode a clause names or leaves out, with `k` at the
limit of its form. -/
theorem witness_UnusedBits :
    (∀ op ∈ [(0 : BitVec 5), 1, 2, 3, 4, 5, 6, 7, 8, 9, 10, 11, 20],
      (Fields.decode { Fields.opcode 0 with op := op }).isOk = true) ∧
    (Fields.decode { Fields.opcode 3 with cond := 14, k := 0xFFFF }).isOk = true ∧
    (Fields.decode { Fields.opcode 11 with rd := 7, ra := 7, i := 1, k := 255 }).isOk = true ∧
    (Fields.decode { Fields.opcode 11 with rd := 7, ra := 7, i := 0, k := 7 }).isOk = true ∧
    (Fields.decode { Fields.opcode 11 with i := 1, k := 256 }).isOk = false ∧
    (Fields.decode { Fields.opcode 11 with i := 0, k := 8 }).isOk = false := by
  decide

/-- StepStopsWhenHaltedOrOutOfRange, StepFailsExactlyWhen, FailedRequestChangesNothingAndRepeats: every fault
a step can answer, on a state of its condition. -/
theorem witness_faults :
    step { running with proc := { running.proc with halted := true } } = .fault .stoppedHalted ∧
    step { running with proc := { running.proc with pc := 4 } } = .fault .stoppedPcOutOfRange ∧
    step { running with code := [0, 0xA8000000] } = .fault (.unsupportedInstruction 0xA8000000) ∧
    step { running with labels := [] } = .fault (.unknownLabel 1) ∧
    step { running with code := [0, 0x18000009] } = .fault (.unknownLabel 9) ∧
    step { called with proc := { called.proc with pc := 1 } } = .fault .stackOverflow :=
  ⟨rfl, rfl, rfl, rfl, rfl, rfl⟩

/-- RunEndsAtTheReportedFault: a run that ends in one step and a run that ends at once. -/
theorem witness_RunEnds :
    (State.run 2 { State.reset with code := [0x30000000] }).2 = some .stoppedHalted ∧
    (State.run 1 State.reset).2 = some .stoppedPcOutOfRange :=
  ⟨rfl, rfl⟩

/-- PlacedWordRunsNext: a word that names a label, and one that names none, in fewer bits. -/
theorem witness_PlacedWord :
    decode (BitVec.ofNat 32 (0x20000001 % 2 ^ 32)) = .ok (.call 1) ∧
    decode (BitVec.ofNat 32 (0xFF200001 % 2 ^ 24)) = .ok (.ldrInd 2 1) :=
  ⟨rfl, rfl⟩

/-- StepKeepsPcValuesInWidth, with the pc at the last value of the width after the step. -/
theorem witness_PcFits :
    running.PcFits 3 ∧ called.PcFits 3 ∧
    (∃ s t : State, s.PcFits 1 ∧ step s = .next t ∧ t.proc.pc = 2 ^ 1 - 1) := by
  have small : State.PcFits 1 { State.reset with code := [0x38000000] } :=
    ⟨by decide, by simp [State.reset], by decide, by simp [State.reset, Proc.reset]⟩
  exact ⟨⟨by decide, by simp [running], by decide, by simp [running, Proc.reset]⟩,
    ⟨by decide, by simp [called, running], by decide, by simp [called, State.stepped, running]⟩,
    _, _, small, rfl, rfl⟩

/-- The whole-machine rules (OnlyTheDestinationRegisterChanges to EveryStepIsRecorded): instructions that
complete, one for each hypothesis. -/
theorem witness_exec_next :
    (∃ t, exec (.addImm 3 1 1) running = .next t ∧ destReg (.addImm 3 1 1) ≠ some 1) ∧
    (∃ t, exec (.movImm 3 0) running = .next t ∧ writesFlags (.movImm 3 0) = false ∧ Advances running t) ∧
    (∃ t, exec (.strAbs 255 0) running = .next t ∧ IsStr (.strAbs 255 0)) ∧
    (∃ t, exec (.call 1) running = .next t ∧ t.proc.cs = running.proc.cs ++ [2]) ∧
    (∃ t, exec .ret called = .next t ∧ t.proc.cs = []) ∧
    (∃ t, exec .hlt running = .next t ∧ t.proc.halted = true) ∧
    (∃ t, exec .nop State.reset = .next t ∧ State.reset.params.histDepth = none ∧
      t.history = [(Proc.reset, {})]) ∧
    (∃ t, exec .nop running = .next t ∧ running.params.histDepth = some 1 ∧
      t.history = [(running.proc, {})]) :=
  ⟨⟨_, rfl, by decide⟩, ⟨_, rfl, rfl, rfl⟩, ⟨_, rfl, .abs 255, 0, rfl⟩, ⟨_, rfl, rfl⟩, ⟨_, rfl, rfl⟩,
    ⟨_, rfl, rfl⟩, ⟨_, rfl, rfl, rfl⟩, ⟨_, rfl, rfl, rfl⟩⟩

/-- PcAdvancesUnlessTransferred and OnlyStrChangesMemory: an instruction that is none of those shut out. -/
theorem witness_not_transfer :
    ¬ IsStr .hlt ∧ ¬ IsBranch .hlt ∧ (∀ l, Instr.hlt ≠ .call l) ∧ Instr.hlt ≠ .ret :=
  ⟨fun ⟨a, _, h⟩ => (by cases a <;> cases h), fun ⟨cc, _, h⟩ => (by cases cc <;> cases h),
    fun _ h => (by cases h), fun h => (by cases h)⟩

/-- HistoryAndReportAreInvisible: a step that completes and a step that faults. -/
theorem witness_HistoryInvisible :
    step running = .next called ∧ step { running with labels := [] } = .fault (.unknownLabel 1) :=
  ⟨rfl, rfl⟩

/-- An Effect with every field, its write at the last address. -/
def fullEffect : Effect where
  flags := some (zcnv false true false true).all
  write := some (255, 1)
  reg   := some (7, 1)
  jump  := some 3
  stack := some .pop
  halt  := some true

/-- ApplyCommitsEveryField and InvertCapturesWhatIsOverwritten: an Effect with every field and the
empty Effect. -/
theorem witness_Effects :
    vecP.wf ∧ vecP.cs = [5] ++ [9] ∧ Proc.reset.cs = [] ∧
    (∀ a v, fullEffect.write = some (a, v) → a < 256) ∧
    (∀ a v, ({} : Effect).write = some (a, v) → a < 256) := by
  refine ⟨rfl, rfl, rfl, ?_, ?_⟩
  · intro a v h
    cases h
    decide
  · intro a v h
    cases h

/-- WriteBeyondMemoryIsOutOfRange and MemoryBoundIsExact, where their clauses meet. -/
theorem witness_memory_bound :
    ({ write := some (256, 1) } : Effect).write = some (256, 1) ∧ (256 : Nat) ≤ 256 ∧
    memRead [] 255 = .ok 0 ∧ memRead [] 256 = .error (.outOfRange 256) ∧
    memWrite [] 255 1 = .ok [(255, 1)] ∧ memWrite [] 256 1 = .error (.outOfRange 256) :=
  ⟨rfl, by decide, rfl, rfl, rfl, rfl⟩

/-- UndoRestoresExactlyUnlessHaltIsRedundant: commits with and without a halt field, from a running and from a
halted state. -/
theorem witness_UndoRestores :
    vecP.wf ∧ StackWithin (some 2) vecP.cs ∧
    (∃ q, apply (some 2) vecP { write := some (255, 1) } = .ok q) ∧
    (∃ q, apply (some 2) vecP { halt := some true } = .ok q ∧ vecP.halted = false) ∧
    (∃ q, apply (some 2) { vecP with halted := true } { halt := some true } = .ok q) :=
  ⟨rfl, by intro d hd; cases hd; decide, ⟨_, rfl⟩, ⟨_, rfl, rfl⟩, ⟨_, rfl⟩⟩

/-- UndoReversesAnyStep, UndoWalksBackTheHistory, RedoAfterUndoGivesTheStepAgain: a state of the invariant with a history, and one without. -/
theorem witness_Undo :
    running.Inv ∧ running.params.histDepth ≠ some 0 ∧ step running = .next called ∧ called.Inv ∧
    called.history = [] ++ [(running.proc, { jump := some 3, stack := some (.push 2) })] ∧
    called.undo = .next { running with history := [] } ∧
    State.reset.Inv ∧ State.reset.history = [] :=
  ⟨witness_running_Inv, by decide, rfl, witness_called_Inv, rfl, rfl,
    ⟨rfl, (by intro d hd; cases hd), (by intro d hd; cases hd), trivial⟩, rfl⟩

/-- StrStoresTheByte: a memory in canonical form with both ends listed. -/
theorem witness_Str : ({ Proc.reset with mem := [(0, 1), (255, 1)] } : Proc).wf := rfl

/-- NegationRule: an operand that is not 0. -/
theorem witness_Negation : (1 : Byte) ≠ 0 ∧ (0xFF : Byte) ≠ 0 := by decide

/-- CmpThenConditionsOrderTheOperands: a second operand for each clause, next to the one it shuts out. -/
theorem witness_Cmp :
    (start 5 0).proc.value (.reg 2) = 0 ∧ (start 5 1).proc.value (.reg 2) ≠ 0 ∧
    (start 5 0x7F).proc.value (.reg 2) ≠ 0x80 ∧ (start 5 0).proc.value (.imm 0x81) ≠ 0x80 := by
  decide

/-- BranchJumpsWhenTheConditionHolds: taken, not taken, taken to an absent label. -/
theorem witness_Branch :
    condHolds .eq (start 0 0).proc.flags = true ∧ lookupLabel running.labels 1 = .ok 3 ∧
    condHolds .ne (start 0 0).proc.flags = false ∧ (∀ e ∈ running.labels, e.1 ≠ 2) :=
  ⟨rfl, rfl, rfl, by decide⟩

/-- CallPushesTheReturnPoint and RetAfterCallReturnsBehindIt: the last free place of a finite stack, a full
stack, an unbounded one; RetPopsTheReturnPoint: a non-empty and an empty stack. -/
theorem witness_CallRet :
    lookupLabel running.labels 1 = .ok 3 ∧
    (∀ d, running.params.stackDepth = some d → running.proc.cs.length < d) ∧
    (∀ d, State.reset.params.stackDepth = some d → State.reset.proc.cs.length < d) ∧
    (∃ e ∈ called.labels, e.1 = 1) ∧ called.params.stackDepth = some 1 ∧ 1 ≤ called.proc.cs.length ∧
    called.proc.cs = [] ++ [2] ∧ running.proc.cs = [] := by
  refine ⟨rfl, ?_, ?_, ⟨(1, 3), by decide, rfl⟩, rfl, by decide, rfl, rfl⟩
  · intro d hd
    cases hd
    decide
  · intro d hd
    cases hd

end Sys2Proof.Tests
end

/-! ## The invariant along a step

What a step that answers a next state does, as one commit and one record (R81, R102); the algebra of history
chains under the two operations of `recordHistory`, appending a pair and losing the oldest ones; and from these
that every step keeps `State.Inv`. -/

namespace Sys2Proof.Machine

/-- A step that answers a next state committed the Effect of the decoded instruction on the present state and
recorded it (R81 steps 5 to 8): `step_next` and `exec_next` in one. -/
theorem step_next_stepped {s t : State} (h : step s = .next t) :
    s.proc.halted = false ∧
    ∃ w i e p, s.code[s.proc.pc]? = some w ∧ decode w = .ok i ∧ effectOf i s = .ok e ∧
      apply s.params.stackDepth s.proc e = .ok p ∧ t = s.stepped p e := by
  obtain ⟨hrun, w, i, hw, hi, hexec⟩ := step_next.1 h
  obtain ⟨e, p, he, hp, ht⟩ := exec_next.1 hexec
  exact ⟨hrun, w, i, e, p, hw, hi, he, hp, ht⟩

/-! Histories as chains (R102). -/

@[simp] theorem historyStart_nil (q : Proc) : historyStart [] q = q := rfl

@[simp] theorem historyStart_cons (pair : Proc × Effect) (rest : List (Proc × Effect)) (q : Proc) :
    historyStart (pair :: rest) q = pair.1 := rfl

@[simp] theorem historyChain_nil (depth : Option Nat) (q : Proc) : HistoryChain depth [] q := trivial

@[simp] theorem historyChain_cons {depth : Option Nat} {pair : Proc × Effect}
    {rest : List (Proc × Effect)} {q : Proc} :
    HistoryChain depth (pair :: rest) q ↔
      Link depth pair.1 pair.2 (historyStart rest q) ∧ HistoryChain depth rest q := Iff.rfl

/-- A history that ends with the pair of `p` starts where the history before it, which ends in `p`, starts. -/
@[simp] theorem historyStart_append_singleton (history : List (Proc × Effect)) (p : Proc) (e : Effect)
    (q : Proc) : historyStart (history ++ [(p, e)]) q = historyStart history p := by
  cases history <;> rfl

/-- The newest pair is one more link: the history before it ends in the pair's state. -/
theorem historyChain_append_singleton {depth : Option Nat} {history : List (Proc × Effect)} {p q : Proc}
    {e : Effect} :
    HistoryChain depth (history ++ [(p, e)]) q ↔ HistoryChain depth history p ∧ Link depth p e q := by
  induction history with
  | nil => simp
  | cons pair rest ih => simp [ih, and_assoc]

/-- A chain that loses its oldest pairs is a chain to the same state. -/
theorem HistoryChain.drop {depth : Option Nat} {history : List (Proc × Effect)} {q : Proc}
    (h : HistoryChain depth history q) (n : Nat) : HistoryChain depth (history.drop n) q := by
  induction n generalizing history with
  | zero => exact h
  | succ n ih =>
    cases history with
    | nil => exact h
    | cons pair rest => exact ih (historyChain_cons.1 h).2

/-- Recording a commit continues the chain to the state the commit gave, whatever the history's depth (R102). -/
theorem HistoryChain.record {depth histDepth : Option Nat} {history : List (Proc × Effect)}
    {p q : Proc} {e : Effect} (h : HistoryChain depth history p) (hlink : Link depth p e q) :
    HistoryChain depth (recordHistory histDepth history (p, e)) q := by
  obtain ⟨n, hn⟩ := recordHistory_eq_drop histDepth history (p, e)
  rw [hn]
  exact (historyChain_append_singleton.2 ⟨h, hlink⟩).drop n

/-- A history is within its depth after every record, also where it was not before (R5, R102). -/
theorem historyWithin_recordHistory (depth : Option Nat) (history : List (Proc × Effect))
    (pair : Proc × Effect) : HistoryWithin depth (recordHistory depth history pair) := by
  rintro d rfl
  exact length_recordHistory_le d history pair

/-! The invariant. -/

/-- The commit of a running core in a state of the invariant is a link of a history. -/
theorem State.Inv.link {s : State} (h : s.Inv) (hrun : s.proc.halted = false) {e : Effect} {p : Proc}
    (hp : apply s.params.stackDepth s.proc e = .ok p) : Link s.params.stackDepth s.proc e p :=
  ⟨h.wf, h.stack, hrun, hp⟩

/-- Committing and recording any Effect, not only an instruction's, keeps the invariant of a running core. -/
theorem State.Inv.stepped {s : State} (h : s.Inv) (hrun : s.proc.halted = false) {e : Effect} {p : Proc}
    (hp : apply s.params.stackDepth s.proc e = .ok p) : (s.stepped p e).Inv where
  wf := apply_wf hp h.wf
  stack := apply_stack_within hp h.stack
  bounded := historyWithin_recordHistory _ _ _
  chain := h.chain.record (h.link hrun hp)

end Sys2Proof.Machine

section
open Sys2Proof.Machine

/-- Settles O18: a step is one commit by a running core and one record of it, which `State.Inv.stepped` says
keep the invariant. -/
theorem stepKeepsTheInvariant : Obligations.StepKeepsTheInvariant := by
  intro s t hinv hstep
  obtain ⟨hrun, -, -, e, p, -, -, -, hp, rfl⟩ := step_next_stepped hstep
  exact hinv.stepped hrun hp

end

/-! ## What an instruction's Effect can hold

The execute stage's frame, said once over all instructions (`effectOf_frame`): each field of an Effect is present
only in the instructions whose rule writes it, and a jump goes to a label's value or to a call stack entry.
With one lemma per field of the commit, every whole-machine rule is one field of this frame carried over the commit. -/

namespace Sys2Proof.Machine

/-- What the Effect `e` of the instruction `i` in the state `s` can hold, field by field (the table of R11 for `reg`,
of R17 for `flags`; R22 for `write`; R14 and R150 to R156 for `jump`; R21 for `stack`; R19 for `halt`). -/
structure EffectFrame (i : Instr) (s : State) (e : Effect) : Prop where
  reg       : ∀ u, e.reg = some u → destReg i = some u.1
  flags     : writesFlags i = false → e.flags = none
  write     : ¬ IsStr i → e.write = none
  jump      : ¬ IsBranch i → (∀ l, i ≠ .call l) → i ≠ .ret → e.jump = none
  target    : ∀ t, e.jump = some t → t ∈ s.proc.cs ∨ ∃ l, (l, t) ∈ s.labels
  stack     : ∀ op, e.stack = some op →
    ((∃ l, i = .call l) ∧ op = .push (s.proc.pc + 1)) ∨ (i = .ret ∧ op = .pop)
  haltOfHlt : i = .hlt → e.halt = some true
  haltOfNe  : i ≠ .hlt → e.halt = none

/-- An Effect of register and flag fields only: the destination of R11, and flags exactly in the table of R17. -/
theorem EffectFrame.of_reg_flags {i : Instr} {s : State} {r : Option (RegId × Byte)} {f : Option FlagUpdate}
    (hr : r.map Prod.fst = destReg i) (hf : f.isSome = writesFlags i) (hhlt : i ≠ .hlt) :
    EffectFrame i s { reg := r, flags := f } where
  reg u hu := by rw [← hr, show r = some u from hu]; rfl
  flags h := by simpa [h] using hf
  write _ := rfl
  jump _ _ _ := rfl
  target := nofun
  stack := nofun
  haltOfHlt h := absurd h hhlt
  haltOfNe _ := rfl

/-- A read at an address that is a byte succeeds, so `ldr` always has its Effect (R44, R110). -/
@[simp] theorem ldrEffect_eq (d : RegId) (a : Address) (p : Proc) :
    ldrEffect d a p = .ok { reg := some (d, p.mem.read (p.resolve a).toNat) } := by
  simp [ldrEffect]

/-- An Effect of jump and stack fields only, of an instruction that transfers control. -/
theorem EffectFrame.of_jump_stack {i : Instr} {s : State} {j : Option Pc} {o : Option StackOp}
    (hi : IsBranch i ∨ (∃ l, i = .call l) ∨ i = .ret) (hhlt : i ≠ .hlt)
    (htarget : ∀ t, j = some t → t ∈ s.proc.cs ∨ ∃ l, (l, t) ∈ s.labels)
    (hstack : ∀ op, o = some op →
      ((∃ l, i = .call l) ∧ op = .push (s.proc.pc + 1)) ∨ (i = .ret ∧ op = .pop)) :
    EffectFrame i s { jump := j, stack := o } where
  reg := nofun
  flags _ := rfl
  write _ := rfl
  jump hb hc hr := by
    obtain h | ⟨l, h⟩ | h := hi
    · exact absurd h hb
    · exact absurd h (hc l)
    · exact absurd h hr
  target := htarget
  stack := hstack
  haltOfHlt h := absurd h hhlt
  haltOfNe _ := rfl

/-- A branch, taken or not, holds at most a jump, to a label's value (R151). -/
theorem branchEffect_frame {cc : Cond} {l : Label} {s : State} {e : Effect}
    (h : branchEffect cc l s.labels s.proc = .ok e) : EffectFrame (Instr.b cc l) s e := by
  have htransfers : IsBranch (Instr.b cc l) := ⟨cc, l, rfl⟩
  have hhlt : Instr.b cc l ≠ .hlt := by cases cc <;> nofun
  unfold branchEffect at h
  split at h
  · cases hl : lookupLabel s.labels l with
    | error f => simp [hl] at h
    | ok t =>
      simp only [hl, Except.ok.injEq] at h
      subst h
      exact .of_jump_stack (.inl htransfers) hhlt
        (by rintro _ ⟨⟩; exact .inr ⟨l, lookupLabel_mem hl⟩) nofun
  · obtain rfl := Except.ok.inj h
    exact .of_jump_stack (.inl htransfers) hhlt nofun nofun

/-- `call` jumps to its label's value and pushes `pc + 1` (R152). -/
theorem callEffect_frame {l : Label} {s : State} {e : Effect}
    (h : callEffect l s.labels s.proc = .ok e) : EffectFrame (.call l) s e := by
  unfold callEffect at h
  cases hl : lookupLabel s.labels l with
  | error f => simp [hl] at h
  | ok t =>
    simp only [hl, Except.ok.injEq] at h
    subst h
    exact .of_jump_stack (.inr (.inl ⟨l, rfl⟩)) nofun
      (by rintro _ ⟨⟩; exact .inr ⟨l, lookupLabel_mem hl⟩)
      (by rintro _ ⟨⟩; exact .inl ⟨⟨l, rfl⟩, rfl⟩)

/-- `ret` jumps to the top of the call stack and pops it, or does nothing on an empty one (R153). -/
theorem retEffect_frame (s : State) : EffectFrame .ret s (retEffect s.proc) := by
  unfold retEffect
  cases ht : top s.proc.cs with
  | none => exact .of_jump_stack (.inr (.inr rfl)) nofun nofun nofun
  | some t =>
    exact .of_jump_stack (.inr (.inr rfl)) nofun
      (by rintro _ ⟨⟩; exact .inl (List.mem_of_getLast? ht))
      (by rintro _ ⟨⟩; exact .inr ⟨rfl, rfl⟩)

/-- `str` holds its write only (R111). -/
theorem strEffect_frame (a : Address) (r : RegId) (s : State) :
    EffectFrame (Instr.str a r) s (strEffect a r s.proc) where
  reg := nofun
  flags _ := rfl
  write h := absurd ⟨a, r, rfl⟩ h
  jump _ _ _ := rfl
  target := nofun
  stack := nofun
  haltOfHlt h := by cases a <;> cases h
  haltOfNe _ := rfl

/-- `hlt` sets the halt field only (R170). -/
theorem hltEffect_frame (s : State) : EffectFrame .hlt s hltEffect where
  reg := nofun
  flags _ := rfl
  write _ := rfl
  jump _ _ _ := rfl
  target := nofun
  stack := nofun
  haltOfHlt _ := rfl
  haltOfNe h := absurd rfl h

/-- The execute stage's frame, for every instruction (R82): control transfer, `str` and `hlt` by their own Effects,
every other instruction by an Effect of register and flag fields only. -/
theorem effectOf_frame {i : Instr} {s : State} {e : Effect} (h : effectOf i s = .ok e) :
    EffectFrame i s e := by
  cases i with
  | bal l => exact branchEffect_frame (cc := .al) h
  | beq l => exact branchEffect_frame (cc := .eq) h
  | bne l => exact branchEffect_frame (cc := .ne) h
  | bgt l => exact branchEffect_frame (cc := .gt) h
  | blt l => exact branchEffect_frame (cc := .lt) h
  | bge l => exact branchEffect_frame (cc := .ge) h
  | ble l => exact branchEffect_frame (cc := .le) h
  | bhi l => exact branchEffect_frame (cc := .hi) h
  | blo l => exact branchEffect_frame (cc := .lo) h
  | bhs l => exact branchEffect_frame (cc := .hs) h
  | bls l => exact branchEffect_frame (cc := .ls) h
  | bpl l => exact branchEffect_frame (cc := .pl) h
  | bmi l => exact branchEffect_frame (cc := .mi) h
  | bvs l => exact branchEffect_frame (cc := .vs) h
  | bvc l => exact branchEffect_frame (cc := .vc) h
  | call l => exact callEffect_frame h
  | ret => obtain rfl := Except.ok.inj h; exact retEffect_frame s
  | hlt => obtain rfl := Except.ok.inj h; exact hltEffect_frame s
  | strInd rb src => obtain rfl := Except.ok.inj h; exact strEffect_frame (.ind rb) src s
  | strAbs k src => obtain rfl := Except.ok.inj h; exact strEffect_frame (.abs k) src s
  | ldrInd d rb =>
    obtain rfl := Except.ok.inj ((ldrEffect_eq d (.ind rb) s.proc).symm.trans h)
    exact .of_reg_flags rfl rfl nofun
  | ldrAbs d k =>
    obtain rfl := Except.ok.inj ((ldrEffect_eq d (.abs k) s.proc).symm.trans h)
    exact .of_reg_flags rfl rfl nofun
  | _ => obtain rfl := Except.ok.inj h; exact .of_reg_flags rfl rfl nofun

/-! The commit, one lemma per field. -/

section
variable {depth : Option Nat} {p q : Proc} {e : Effect}

theorem apply_reg_of_ne {r : RegId} (h : apply depth p e = .ok q) (hr : ∀ u, e.reg = some u → u.1 ≠ r) :
    q.reg r = p.reg r := by
  obtain ⟨-, -, hx, -⟩ := apply_ok.1 h
  unfold Proc.reg
  cases he : e.reg with
  | none => rw [hx, he, applyReg_none]
  | some u => rw [hx, he, applyReg_some, get_setReg, if_neg (hr u he).symm]

theorem apply_flags_of_none (h : apply depth p e = .ok q) (he : e.flags = none) : q.flags = p.flags := by
  obtain ⟨-, -, -, hf, -⟩ := apply_ok.1 h
  rw [hf, he, applyFlags_none]

theorem apply_mem_of_none (h : apply depth p e = .ok q) (he : e.write = none) : q.mem = p.mem := by
  obtain ⟨hw, -⟩ := apply_ok.1 h
  rw [he, applyWrite_none] at hw
  exact (Except.ok.inj hw).symm

theorem apply_pc (h : apply depth p e = .ok q) : q.pc = e.jump.getD (p.pc + 1) := by
  obtain ⟨-, -, -, -, hpc, -⟩ := apply_ok.1 h
  exact hpc

theorem apply_halted (h : apply depth p e = .ok q) : q.halted = e.halt.getD p.halted := by
  obtain ⟨-, -, -, -, -, hh⟩ := apply_ok.1 h
  exact hh

/-- The three things a commit can do to the call stack (R89). -/
theorem apply_cs_cases (h : apply depth p e = .ok q) :
    (e.stack = none ∧ q.cs = p.cs) ∨ (∃ v, e.stack = some (.push v) ∧ q.cs = p.cs ++ [v]) ∨
      (e.stack = some .pop ∧ q.cs = p.cs.dropLast) := by
  obtain ⟨-, hs, -⟩ := apply_ok.1 h
  cases he : e.stack with
  | none => exact .inl ⟨rfl, by simpa [he, eq_comm] using hs⟩
  | some op =>
    rw [he] at hs
    cases op with
    | push v => exact .inr (.inl ⟨v, rfl, (push_ok.1 hs).2⟩)
    | pop => exact .inr (.inr ⟨rfl, (Except.ok.inj hs).symm⟩)

end

/-- An instruction that completes committed an Effect of its frame (R81 steps 5 to 7). -/
theorem exec_next_frame {i : Instr} {s t : State} (h : exec i s = .next t) :
    ∃ e, EffectFrame i s e ∧ apply s.params.stackDepth s.proc e = .ok t.proc := by
  obtain ⟨e, p, he, hp, rfl⟩ := exec_next.1 h
  exact ⟨e, effectOf_frame he, hp⟩

/-- The pc after an instruction: the default advance, an entry of the call stack or a label's value (R14, R21, R25). -/
theorem exec_next_pc {i : Instr} {s t : State} (h : exec i s = .next t) :
    t.proc.pc = s.proc.pc + 1 ∨ t.proc.pc ∈ s.proc.cs ∨ ∃ l, (l, t.proc.pc) ∈ s.labels := by
  obtain ⟨e, hframe, hp⟩ := exec_next_frame h
  rw [apply_pc hp]
  cases hj : e.jump with
  | none => exact .inl rfl
  | some target => exact .inr (hframe.target target hj)

/-- A running core's pc is inside the program, so the advance is at most the program's length (R14). -/
theorem State.PcFits.succ_pc_le {width : Nat} {s : State} {w : Word} (h : s.PcFits width)
    (hw : s.code[s.proc.pc]? = some w) : s.proc.pc + 1 ≤ 2 ^ width - 1 := by
  obtain ⟨hlt, -⟩ := List.getElem?_eq_some_iff.1 hw
  exact Nat.le_trans hlt h.code

@[simp] theorem stackWithin_none (cs : List Pc) : StackWithin none cs := nofun

@[simp] theorem historyWithin_none (history : List (Proc × Effect)) : HistoryWithin none history := nofun

/-- What an instruction faults with does not depend on the history or the report (R28). -/
theorem exec_fault_set_history_report {i : Instr} {s : State} {f : Fault} (history : List (Proc × Effect))
    (report : Option Fault) (h : exec i s = .fault f) :
    exec i { s with history := history, report := report } = .fault f := by
  have hcause := exec_fault.1 h
  exact exec_fault.2 hcause

end Sys2Proof.Machine

section
open Sys2Proof Sys2Proof.Machine

/-- Settles O17: memory and history are empty at reset, and the default depths are unbounded. -/
theorem resetMeetsTheInvariant : Obligations.ResetMeetsTheInvariant where
  wf := rfl
  stack := stackWithin_none _
  bounded := historyWithin_none _
  chain := historyChain_nil _ _

/-- Settles O20, by the `reg` field of the Effect's frame. -/
theorem onlyTheDestinationRegisterChanges : Obligations.OnlyTheDestinationRegisterChanges := by
  intro i s t h r hr
  obtain ⟨e, hframe, hp⟩ := exec_next_frame h
  refine apply_reg_of_ne hp fun u hu hur => hr ?_
  rw [hframe.reg u hu, hur]

/-- Settles O21, by the `flags` field of the Effect's frame. -/
theorem onlyFlagWritersChangeFlags : Obligations.OnlyFlagWritersChangeFlags := by
  intro i s t h hflags
  obtain ⟨e, hframe, hp⟩ := exec_next_frame h
  exact apply_flags_of_none hp (hframe.flags hflags)

/-- Settles O22, by the `write` field of the Effect's frame. -/
theorem onlyStrChangesMemory : Obligations.OnlyStrChangesMemory := by
  intro i s t h hstr a _
  obtain ⟨e, hframe, hp⟩ := exec_next_frame h
  rw [apply_mem_of_none hp (hframe.write hstr)]

/-- Settles O23: the commit's three cases, each with the instruction the frame's `stack` field allows it. -/
theorem onlyCallAndRetChangeTheStack : Obligations.OnlyCallAndRetChangeTheStack := by
  intro i s t h
  obtain ⟨e, hframe, hp⟩ := exec_next_frame h
  obtain ⟨-, hcs⟩ | ⟨v, hpush, hcs⟩ | ⟨hpop, hcs⟩ := apply_cs_cases hp
  · exact .inl hcs
  · obtain ⟨hcall, ⟨⟩⟩ | ⟨-, ⟨⟩⟩ := hframe.stack _ hpush
    exact .inr (.inl ⟨hcall, hcs⟩)
  · obtain ⟨-, ⟨⟩⟩ | ⟨hret, -⟩ := hframe.stack _ hpop
    exact .inr (.inr ⟨hret, hcs⟩)

/-- Settles O24, by the `jump` field of the Effect's frame. -/
theorem pcAdvancesUnlessTransferred : Obligations.PcAdvancesUnlessTransferred := by
  intro i s t h hbranch hcall hret
  obtain ⟨e, hframe, hp⟩ := exec_next_frame h
  have hpc := apply_pc hp
  rwa [hframe.jump hbranch hcall hret] at hpc

/-- Settles O25, by the two halt fields of the Effect's frame. -/
theorem onlyHltHalts : Obligations.OnlyHltHalts := by
  intro i s t h
  obtain ⟨e, hframe, hp⟩ := exec_next_frame h
  have hhalted := apply_halted hp
  constructor
  · intro hhlt
    rwa [hframe.haltOfHlt hhlt] at hhalted
  · intro hhlt
    rwa [hframe.haltOfNe hhlt] at hhalted

/-- Settles O26: completing an instruction replaces the Processor State, the history and the report only. -/
theorem programIsReadOnly : Obligations.ProgramIsReadOnly := by
  intro i s t h
  obtain ⟨e, p, -, -, rfl⟩ := exec_next.1 h
  exact ⟨rfl, rfl, rfl⟩

/-- Settles O28: the fetched word, the Effect and its commit are those of the state with another history and report. -/
theorem historyAndReportAreInvisible : Obligations.HistoryAndReportAreInvisible := by
  intro s history report
  constructor
  · intro t h
    obtain ⟨hrun, w, i, e, p, hw, hi, he, hp, rfl⟩ := step_next_stepped h
    exact ⟨_, step_next.2 ⟨hrun, w, i, hw, hi, exec_next.2 ⟨e, p, he, hp, rfl⟩⟩, rfl⟩
  · intro f h
    apply step_fault.2
    obtain hhalted | hend | ⟨hrun, w, hw, hbad | ⟨i, hi, hexec⟩⟩ := step_fault.1 h
    · exact .inl hhalted
    · exact .inr (.inl hend)
    · exact .inr (.inr ⟨hrun, w, hw, .inl hbad⟩)
    · exact .inr (.inr ⟨hrun, w, hw, .inr ⟨i, hi, exec_fault_set_history_report history report hexec⟩⟩)

/-- Settles O19: the fetch puts the pc inside the program, so its advance fits; a jump goes to a label's value or to
a call stack entry, which fit; and the stack gains nothing but the advanced pc. -/
theorem stepKeepsPcValuesInWidth : Obligations.StepKeepsPcValuesInWidth := by
  intro width s t hfits hstep
  obtain ⟨-, w, i, hw, -, hexec⟩ := step_next.1 hstep
  obtain ⟨hcode, hlabels, -⟩ := programIsReadOnly i s t hexec
  have hadvance := hfits.succ_pc_le hw
  refine ⟨hcode ▸ hfits.code, hlabels ▸ hfits.labels, ?_, ?_⟩
  · obtain hpc | hpc | ⟨l, hl⟩ := exec_next_pc hexec
    · exact hpc ▸ hadvance
    · exact hfits.cs _ hpc
    · exact hfits.labels _ hl
  · intro v hv
    obtain hcs | ⟨-, hcs⟩ | ⟨-, hcs⟩ := onlyCallAndRetChangeTheStack i s t hexec <;> rw [hcs] at hv
    · exact hfits.cs v hv
    · obtain hv | rfl := List.mem_append.1 hv |>.imp_right List.mem_singleton.1
      · exact hfits.cs v hv
      · exact hadvance
    · exact hfits.cs v (List.dropLast_subset _ hv)

end

/-! ## The memory bound and the failures of a step

Beyond the memory a read and a write answer `OutOfRange` (R33). The execute stage fails only by looking up an absent
label (`effectOf_error`), the commit of an instruction's Effect only by a push onto a full finite stack
(`apply_effectOf_error`); together they are every way an instruction can fault (`exec_fault_cases`). -/

namespace Sys2Proof.Machine

theorem memRead_of_le {a : Nat} (m : Memory) (ha : Config.memSize ≤ a) :
    memRead m a = .error (.outOfRange a) := if_neg (Nat.not_lt.2 ha)

theorem memWrite_of_le {a : Nat} (m : Memory) (v : Byte) (ha : Config.memSize ≤ a) :
    memWrite m a v = .error (.outOfRange a) := if_neg (Nat.not_lt.2 ha)

/-! The execute stage's failures. -/

/-- A label lookup fails exactly where the table has no entry for the label (R154, R182). -/
theorem lookupLabel_error_iff {labels : List (Label × Pc)} {l : Label} {f : Fault} :
    lookupLabel labels l = .error f ↔ f = .unknownLabel l ∧ ∀ e ∈ labels, e.1 ≠ l := by
  constructor
  · intro h
    refine ⟨lookupLabel_error h, fun e he hel => ?_⟩
    obtain ⟨t, ht⟩ := lookupLabel_ok.2 ⟨e, he, hel⟩
    simp [h] at ht
  · rintro ⟨rfl, habsent⟩
    cases hl : lookupLabel labels l with
    | ok t =>
      obtain ⟨e, he, hel⟩ := lookupLabel_ok.1 ⟨t, hl⟩
      exact absurd hel (habsent e he)
    | error g => rw [lookupLabel_error hl]

/-- In the state `s` the execute stage of `i` looks up the label `l`: `i` is `call l` (R152) or a branch to `l` whose
condition holds (R151; an untaken branch looks nothing up, the spec's decision D11). -/
def LooksUp (s : State) (i : Instr) (l : Label) : Prop :=
  i = .call l ∨ ∃ cc, i = Instr.b cc l ∧ condHolds cc s.proc.flags = true

theorem branchEffect_error {cc : Cond} {l : Label} {labels : List (Label × Pc)} {p : Proc} {f : Fault} :
    branchEffect cc l labels p = .error f ↔
      condHolds cc p.flags = true ∧ lookupLabel labels l = .error f := by
  unfold branchEffect
  cases condHolds cc p.flags with
  | false => simp
  | true => cases lookupLabel labels l <;> simp

theorem callEffect_error {l : Label} {labels : List (Label × Pc)} {p : Proc} {f : Fault} :
    callEffect l labels p = .error f ↔ lookupLabel labels l = .error f := by
  unfold callEffect
  cases lookupLabel labels l <;> simp

/-- The Effect of a `call` whose label is found (R152, R154). -/
theorem callEffect_ok {l : Label} {labels : List (Label × Pc)} {p : Proc} {e : Effect} :
    callEffect l labels p = .ok e ↔
      ∃ t, lookupLabel labels l = .ok t ∧ e = { jump := some t, stack := some (.push (p.pc + 1)) } := by
  unfold callEffect
  cases lookupLabel labels l <;> simp [eq_comm]

/-- `call` has an Effect in `s` exactly where the table has an entry for its label (R25, R152). -/
theorem effectOf_call_ok {l : Label} {s : State} :
    (∃ e, effectOf (.call l) s = .ok e) ↔ ∃ e ∈ s.labels, e.1 = l := by
  rw [← lookupLabel_ok, effectOf_call]
  constructor
  · rintro ⟨e, he⟩
    obtain ⟨t, ht, -⟩ := callEffect_ok.1 he
    exact ⟨t, ht⟩
  · rintro ⟨t, ht⟩
    exact ⟨_, callEffect_ok.2 ⟨t, ht, rfl⟩⟩

/-- Every instruction is a branch, a `call`, or always has its Effect (R44, R82). -/
theorem isBranch_or_call_or_effectOf_ok (i : Instr) (s : State) :
    IsBranch i ∨ (∃ l, i = .call l) ∨ ∃ e, effectOf i s = .ok e := by
  cases i with
  | bal l => exact .inl ⟨.al, l, rfl⟩
  | beq l => exact .inl ⟨.eq, l, rfl⟩
  | bne l => exact .inl ⟨.ne, l, rfl⟩
  | bgt l => exact .inl ⟨.gt, l, rfl⟩
  | blt l => exact .inl ⟨.lt, l, rfl⟩
  | bge l => exact .inl ⟨.ge, l, rfl⟩
  | ble l => exact .inl ⟨.le, l, rfl⟩
  | bhi l => exact .inl ⟨.hi, l, rfl⟩
  | blo l => exact .inl ⟨.lo, l, rfl⟩
  | bhs l => exact .inl ⟨.hs, l, rfl⟩
  | bls l => exact .inl ⟨.ls, l, rfl⟩
  | bpl l => exact .inl ⟨.pl, l, rfl⟩
  | bmi l => exact .inl ⟨.mi, l, rfl⟩
  | bvs l => exact .inl ⟨.vs, l, rfl⟩
  | bvc l => exact .inl ⟨.vc, l, rfl⟩
  | call l => exact .inr (.inl ⟨l, rfl⟩)
  | ldrInd d rb => exact .inr (.inr ⟨_, ldrEffect_eq d (.ind rb) s.proc⟩)
  | ldrAbs d k => exact .inr (.inr ⟨_, ldrEffect_eq d (.abs k) s.proc⟩)
  | _ => exact .inr (.inr ⟨_, rfl⟩)

/-- The execute stage fails exactly by the lookup of an absent label (R44, R151, R152, R182). -/
theorem effectOf_error {i : Instr} {s : State} {f : Fault} :
    effectOf i s = .error f ↔ ∃ l, LooksUp s i l ∧ f = .unknownLabel l ∧ ∀ e ∈ s.labels, e.1 ≠ l := by
  constructor
  · intro h
    obtain ⟨cc, l, rfl⟩ | ⟨l, rfl⟩ | ⟨e, he⟩ := isBranch_or_call_or_effectOf_ok i s
    · rw [effectOf_b, branchEffect_error] at h
      exact ⟨l, .inr ⟨cc, rfl, h.1⟩, lookupLabel_error_iff.1 h.2⟩
    · rw [effectOf_call, callEffect_error] at h
      exact ⟨l, .inl rfl, lookupLabel_error_iff.1 h⟩
    · simp [he] at h
  · rintro ⟨l, rfl | ⟨cc, rfl, hcc⟩, habsent⟩
    · rw [effectOf_call]
      exact callEffect_error.2 (lookupLabel_error_iff.2 habsent)
    · rw [effectOf_b]
      exact branchEffect_error.2 ⟨hcc, lookupLabel_error_iff.2 habsent⟩

/-! The commit's failures. -/

/-- An instruction writes inside the memory: its address is a byte (R44, R111). -/
theorem write_lt_memSize_of_effectOf {i : Instr} {s : State} {e : Effect} {a : Nat} {v : Byte}
    (h : effectOf i s = .ok e) (hw : e.write = some (a, v)) : a < Config.memSize := by
  have hstr : IsStr i := Classical.byContradiction fun hne =>
    nomatch hw.symm.trans ((effectOf_frame h).write hne)
  obtain ⟨addr, src, rfl⟩ := hstr
  rw [effectOf_str] at h
  obtain rfl := Except.ok.inj h
  cases hw
  exact (s.proc.resolve addr).isLt

/-- A push onto a full finite stack is `StackOverflow`, unless a write fails before it (R185). -/
theorem apply_push_of_full {depth : Option Nat} {d : Nat} {p : Proc} {e : Effect} {v : Pc}
    (hwrite : e.write = none) (hpush : e.stack = some (.push v)) (hd : depth = some d)
    (hfull : d ≤ p.cs.length) : apply depth p e = .error .stackOverflow := by
  have hfails : push depth p.cs v = .error .stackOverflow := push_error.2 ⟨rfl, d, hd, hfull⟩
  simp [apply, hwrite, hpush, hfails]

/-- The call stack of `s` is full, which only a finite one can be (R185). -/
def StackFull (s : State) : Prop := ∃ d, s.params.stackDepth = some d ∧ d ≤ s.proc.cs.length

/-- The commit of an instruction's Effect fails exactly by a `call` on a full finite stack (R44, R185). -/
theorem apply_effectOf_error {i : Instr} {s : State} {e : Effect} {f : Fault} (he : effectOf i s = .ok e) :
    apply s.params.stackDepth s.proc e = .error f ↔
      f = .stackOverflow ∧ (∃ l, i = .call l) ∧ StackFull s := by
  constructor
  · intro h
    obtain ⟨a, v, hw, ha, -⟩ | ⟨rfl, v, hpush, hfull⟩ := apply_error h
    · exact absurd (write_lt_memSize_of_effectOf he hw) (Nat.not_lt.2 ha)
    · obtain ⟨hcall, -⟩ | ⟨-, ⟨⟩⟩ := (effectOf_frame he).stack _ hpush
      exact ⟨rfl, hcall, hfull⟩
  · rintro ⟨rfl, ⟨l, rfl⟩, d, hd, hfull⟩
    obtain ⟨t, -, rfl⟩ := callEffect_ok.1 he
    exact apply_push_of_full rfl rfl hd hfull

/-- Every way an instruction can fault: the lookup of an absent label (R182), a `call` of a present label on a full
finite stack (R185), and no other (R44). -/
theorem exec_fault_cases {i : Instr} {s : State} {f : Fault} :
    exec i s = .fault f ↔
      (∃ l, f = .unknownLabel l ∧ LooksUp s i l ∧ ∀ e ∈ s.labels, e.1 ≠ l) ∨
      (f = .stackOverflow ∧ (∃ l, i = .call l ∧ ∃ e ∈ s.labels, e.1 = l) ∧ StackFull s) := by
  rw [exec_fault, effectOf_error]
  refine or_congr (exists_congr fun l => and_left_comm) ⟨?_, ?_⟩
  · rintro ⟨e, he, hfails⟩
    obtain ⟨rfl, ⟨l, rfl⟩, hfull⟩ := (apply_effectOf_error he).1 hfails
    exact ⟨rfl, ⟨l, rfl, effectOf_call_ok.1 ⟨e, he⟩⟩, hfull⟩
  · rintro ⟨rfl, ⟨l, rfl, hl⟩, hfull⟩
    obtain ⟨e, he⟩ := effectOf_call_ok.2 hl
    exact ⟨e, he, (apply_effectOf_error he).2 ⟨rfl, ⟨l, rfl⟩, hfull⟩⟩

theorem exec_unknownLabel {i : Instr} {s : State} {l : Label} :
    exec i s = .fault (.unknownLabel l) ↔ LooksUp s i l ∧ ∀ e ∈ s.labels, e.1 ≠ l := by
  simp [exec_fault_cases]

theorem exec_stackOverflow {i : Instr} {s : State} :
    exec i s = .fault .stackOverflow ↔ (∃ l, i = .call l ∧ ∃ e ∈ s.labels, e.1 = l) ∧ StackFull s := by
  simp [exec_fault_cases]

/-! The step's failures. -/

/-- The step fails by `UnsupportedInstruction` at the fetched word, and no instruction raises it (R184). -/
theorem step_unsupportedInstruction {s : State} {w : Word} :
    step s = .fault (.unsupportedInstruction w) ↔
      s.proc.halted = false ∧ s.code[s.proc.pc]? = some w ∧ ∃ r, decode w = .error r := by
  rw [step_fault]
  constructor
  · rintro (⟨-, ⟨⟩⟩ | ⟨-, -, ⟨⟩⟩ | ⟨hrun, w', hw, ⟨hr, ⟨⟩⟩ | ⟨i, -, hexec⟩⟩)
    · exact ⟨hrun, hw, hr⟩
    · simp [exec_fault_cases] at hexec
  · rintro ⟨hrun, hw, hr⟩
    exact .inr (.inr ⟨hrun, w, hw, .inl ⟨hr, rfl⟩⟩)

/-- A fault that is no stop and not `UnsupportedInstruction` is the fetched instruction's own (R81, R189). -/
theorem step_fault_iff_exec {s : State} {f : Fault} (hhalted : f ≠ .stoppedHalted)
    (hend : f ≠ .stoppedPcOutOfRange) (hword : ∀ w, f ≠ .unsupportedInstruction w) :
    step s = .fault f ↔
      s.proc.halted = false ∧
      ∃ w i, s.code[s.proc.pc]? = some w ∧ decode w = .ok i ∧ exec i s = .fault f := by
  simp [step_fault, hhalted, hend, hword]

theorem decode_error_iff {w : Word} : (∃ r, decode w = .error r) ↔ ∀ i, decode w ≠ .ok i := by
  cases decode w <;> simp

end Sys2Proof.Machine

section
open Sys2Proof Sys2Proof.Machine

/-- Settles O31: the addresses up to 255 are those below the memory's size. -/
theorem memoryBoundIsExact : Obligations.MemoryBoundIsExact := by
  intro m a v
  constructor
  · intro ha
    have hlt : a < Config.memSize := Nat.lt_succ_of_le ha
    exact ⟨memRead_ok.2 ⟨hlt, rfl⟩, memWrite_ok.2 ⟨hlt, rfl⟩⟩
  · intro ha
    exact ⟨memRead_of_le m ha, memWrite_of_le m v ha⟩

/-- Settles O9: `UnsupportedInstruction` is the decoder's, the other failures are those of the decoded instruction,
which has no more than an absent label and a full stack. -/
theorem stepFailsExactlyWhen : Obligations.StepFailsExactlyWhen := by
  intro s
  refine ⟨fun w => ?_, fun l => ?_, ?_, fun a h => ?_⟩
  · rw [step_unsupportedInstruction, decode_error_iff]
  · rw [step_fault_iff_exec (f := .unknownLabel l) nofun nofun nofun]
    constructor
    · rintro ⟨hrun, w, i, hw, hi, hexec⟩
      obtain ⟨hlooks, habsent⟩ := exec_unknownLabel.1 hexec
      exact ⟨hrun, habsent, w, i, hw, hi, hlooks⟩
    · rintro ⟨hrun, habsent, w, i, hw, hi, hlooks⟩
      exact ⟨hrun, w, i, hw, hi, exec_unknownLabel.2 ⟨hlooks, habsent⟩⟩
  · rw [step_fault_iff_exec (f := .stackOverflow) nofun nofun nofun]
    constructor
    · rintro ⟨hrun, w, i, hw, hi, hexec⟩
      obtain ⟨⟨l, rfl, hl⟩, hfull⟩ := exec_stackOverflow.1 hexec
      exact ⟨hrun, ⟨w, l, hw, hi, hl⟩, hfull⟩
    · rintro ⟨hrun, ⟨w, l, hw, hi, hl⟩, hfull⟩
      exact ⟨hrun, w, _, hw, hi, exec_stackOverflow.2 ⟨⟨l, rfl, hl⟩, hfull⟩⟩
  · obtain ⟨-, w, i, -, -, hexec⟩ := (step_fault_iff_exec (f := .outOfRange a) nofun nofun nofun).1 h
    simp [exec_fault_cases] at hexec

end

/-! ## Decoder and encoder are inverse

The instructions by the 21 shapes of R52, with an Address written as a Value read as an address (R58); the fields of
each shape, placed by its format (R60); and from these that fields decode to an instruction exactly when they are that
instruction's fields (`Fields.decode_eq_ok_iff`), which is both halves of R66. -/

namespace Sys2Proof

/-- The Address with the `i` and `k` of a Value: `Ind` for `Reg` and `Abs` for `Imm` (R58). -/
def Value.toAddress : Value → Address
  | .reg r => .ind r
  | .imm k => .abs k

/-- Every instruction is of one of the 21 shapes of R52, over all its operands. -/
theorem Instr.shapeCases {motive : Instr → Prop}
    (ldr : ∀ d (v : Value), motive (.ldr d v.toAddress))
    (str : ∀ (v : Value) a, motive (.str v.toAddress a))
    (mov : ∀ d v, motive (.mov d v)) (b : ∀ cc l, motive (.b cc l)) (call : ∀ l, motive (.call l))
    (ret : motive .ret) (hlt : motive .hlt) (nop : motive .nop) (cmp : ∀ a v, motive (.cmp a v))
    (neg : ∀ d v, motive (.neg d v)) (not : ∀ d v, motive (.not d v)) (add : ∀ d a v, motive (.add d a v))
    (sub : ∀ d a v, motive (.sub d a v)) (and : ∀ d a v, motive (.and d a v))
    (or : ∀ d a v, motive (.or d a v)) (xor : ∀ d a v, motive (.xor d a v))
    (lsl : ∀ d a v, motive (.lsl d a v)) (lsr : ∀ d a v, motive (.lsr d a v))
    (asr : ∀ d a v, motive (.asr d a v)) (rol : ∀ d a v, motive (.rol d a v))
    (ror : ∀ d a v, motive (.ror d a v)) (i : Instr) : motive i := by
  cases i with
  | ldrInd d rb => exact ldr d (.reg rb)
  | ldrAbs d k => exact ldr d (.imm k)
  | strInd rb src => exact str (.reg rb) src
  | strAbs k src => exact str (.imm k) src
  | movReg d rb => exact mov d (.reg rb)
  | movImm d k => exact mov d (.imm k)
  | bal l => exact b .al l
  | beq l => exact b .eq l
  | bne l => exact b .ne l
  | bgt l => exact b .gt l
  | blt l => exact b .lt l
  | bge l => exact b .ge l
  | ble l => exact b .le l
  | bhi l => exact b .hi l
  | blo l => exact b .lo l
  | bhs l => exact b .hs l
  | bls l => exact b .ls l
  | bpl l => exact b .pl l
  | bmi l => exact b .mi l
  | bvs l => exact b .vs l
  | bvc l => exact b .vc l
  | call l => exact call l
  | ret => exact ret
  | hlt => exact hlt
  | nop => exact nop
  | cmpReg a rb => exact cmp a (.reg rb)
  | cmpImm a k => exact cmp a (.imm k)
  | negReg d rb => exact neg d (.reg rb)
  | negImm d k => exact neg d (.imm k)
  | notReg d rb => exact not d (.reg rb)
  | notImm d k => exact not d (.imm k)
  | addReg d a rb => exact add d a (.reg rb)
  | addImm d a k => exact add d a (.imm k)
  | subReg d a rb => exact sub d a (.reg rb)
  | subImm d a k => exact sub d a (.imm k)
  | andReg d a rb => exact and d a (.reg rb)
  | andImm d a k => exact and d a (.imm k)
  | orReg d a rb => exact or d a (.reg rb)
  | orImm d a k => exact or d a (.imm k)
  | xorReg d a rb => exact xor d a (.reg rb)
  | xorImm d a k => exact xor d a (.imm k)
  | lslReg d a rb => exact lsl d a (.reg rb)
  | lslImm d a k => exact lsl d a (.imm k)
  | lsrReg d a rb => exact lsr d a (.reg rb)
  | lsrImm d a k => exact lsr d a (.imm k)
  | asrReg d a rb => exact asr d a (.reg rb)
  | asrImm d a k => exact asr d a (.imm k)
  | rolReg d a rb => exact rol d a (.reg rb)
  | rolImm d a k => exact rol d a (.imm k)
  | rorReg d a rb => exact ror d a (.reg rb)
  | rorImm d a k => exact ror d a (.imm k)

/-! The fields of each shape: its opcode number (R56) and its operands where its format places them (R60). -/

@[simp] theorem fields_ldr (d : RegId) (v : Value) :
    (Instr.ldr d v.toAddress).fields = ((Fields.opcode 0).withRd d).withValue v := by cases v <;> rfl
@[simp] theorem fields_str (v : Value) (a : RegId) :
    (Instr.str v.toAddress a).fields = ((Fields.opcode 1).withRa a).withValue v := by cases v <;> rfl
@[simp] theorem fields_mov (d : RegId) (v : Value) :
    (Instr.mov d v).fields = ((Fields.opcode 2).withRd d).withValue v := by cases v <;> rfl
@[simp] theorem fields_b (cc : Cond) (l : Label) :
    (Instr.b cc l).fields = Fields.branch (Machine.condNumber cc) l := by cases cc <;> rfl
@[simp] theorem fields_call (l : Label) : (Instr.call l).fields = (Fields.opcode 4).withLabel l := rfl
@[simp] theorem fields_ret : Instr.ret.fields = Fields.opcode 5 := rfl
@[simp] theorem fields_hlt : Instr.hlt.fields = Fields.opcode 6 := rfl
@[simp] theorem fields_nop : Instr.nop.fields = Fields.opcode 7 := rfl
@[simp] theorem fields_cmp (a : RegId) (v : Value) :
    (Instr.cmp a v).fields = ((Fields.opcode 8).withRa a).withValue v := by cases v <;> rfl
@[simp] theorem fields_neg (d : RegId) (v : Value) :
    (Instr.neg d v).fields = ((Fields.opcode 9).withRd d).withValue v := by cases v <;> rfl
@[simp] theorem fields_not (d : RegId) (v : Value) :
    (Instr.not d v).fields = ((Fields.opcode 10).withRd d).withValue v := by cases v <;> rfl
@[simp] theorem fields_add (d a : RegId) (v : Value) :
    (Instr.add d a v).fields = (((Fields.opcode 11).withRd d).withRa a).withValue v := by cases v <;> rfl
@[simp] theorem fields_sub (d a : RegId) (v : Value) :
    (Instr.sub d a v).fields = (((Fields.opcode 12).withRd d).withRa a).withValue v := by cases v <;> rfl
@[simp] theorem fields_and (d a : RegId) (v : Value) :
    (Instr.and d a v).fields = (((Fields.opcode 13).withRd d).withRa a).withValue v := by cases v <;> rfl
@[simp] theorem fields_or (d a : RegId) (v : Value) :
    (Instr.or d a v).fields = (((Fields.opcode 14).withRd d).withRa a).withValue v := by cases v <;> rfl
@[simp] theorem fields_xor (d a : RegId) (v : Value) :
    (Instr.xor d a v).fields = (((Fields.opcode 15).withRd d).withRa a).withValue v := by cases v <;> rfl
@[simp] theorem fields_lsl (d a : RegId) (v : Value) :
    (Instr.lsl d a v).fields = (((Fields.opcode 16).withRd d).withRa a).withValue v := by cases v <;> rfl
@[simp] theorem fields_lsr (d a : RegId) (v : Value) :
    (Instr.lsr d a v).fields = (((Fields.opcode 17).withRd d).withRa a).withValue v := by cases v <;> rfl
@[simp] theorem fields_asr (d a : RegId) (v : Value) :
    (Instr.asr d a v).fields = (((Fields.opcode 18).withRd d).withRa a).withValue v := by cases v <;> rfl
@[simp] theorem fields_rol (d a : RegId) (v : Value) :
    (Instr.rol d a v).fields = (((Fields.opcode 19).withRd d).withRa a).withValue v := by cases v <;> rfl
@[simp] theorem fields_ror (d a : RegId) (v : Value) :
    (Instr.ror d a v).fields = (((Fields.opcode 20).withRd d).withRa a).withValue v := by cases v <;> rfl

/-! The formats on placed fields, and what fields a format's instruction has. -/

/-- The condition numbers are read as R57 lists them. -/
theorem condOfField_ok {b : BitVec 4} {cc : Cond} :
    condOfField b = .ok cc ↔ b = BitVec.ofNat 4 (Machine.condNumber cc) := by
  constructor
  · intro h
    apply BitVec.eq_of_toNat_eq
    unfold condOfField at h
    split at h
    case h_16 => cases h
    all_goals
      next hnumber =>
        cases h
        exact hnumber
  · rintro rfl
    cases cc <;> rfl

namespace Fields

/-- The operand field takes part in neither the opcode nor what `onlyOp` clears. -/
@[simp] theorem onlyOp_withValue (f : Fields) (v : Value) : (f.withValue v).onlyOp = f.onlyOp := by
  cases v <;> rfl

@[simp] theorem op_withValue (f : Fields) (v : Value) : (f.withValue v).op = f.op := by cases v <;> rfl

theorem onlyOp_eq_opcode {f : Fields} {op : Nat} (h : f.op.toNat = op) : f.onlyOp = opcode op := by
  subst h
  simp [onlyOp, opcode]

/-- Format LD is format RV with the Value read as an address (R58, R60). -/
theorem formatLD_eq_formatRV (f : Fields) (mk : RegId → Address → Instr) :
    f.formatLD mk = f.formatRV fun d v => mk d v.toAddress := by
  unfold formatLD formatRV addressOfFields
  cases valueOfFields f.i f.k with
  | error e => rfl
  | ok v => cases v <;> rfl

/-- Format ST is format CV with the Value read as an address (R58, R60). -/
theorem formatST_eq_formatCV (f : Fields) (mk : Address → RegId → Instr) :
    f.formatST mk = f.formatCV fun a v => mk v.toAddress a := by
  unfold formatST formatCV addressOfFields
  cases valueOfFields f.i f.k with
  | error e => rfl
  | ok v => cases v <;> rfl

theorem formatRRV_placed (mk : RegId → RegId → Value → Instr) (op : Nat) (d a : RegId) (v : Value) :
    ((((opcode op).withRd d).withRa a).withValue v).formatRRV mk = .ok (mk d a v) :=
  formatRRV_ok.2 ⟨d, a, v, rfl, by rw [onlyOp_withValue]; rfl⟩

theorem formatRV_placed (mk : RegId → Value → Instr) (op : Nat) (d : RegId) (v : Value) :
    (((opcode op).withRd d).withValue v).formatRV mk = .ok (mk d v) :=
  formatRV_ok.2 ⟨d, v, rfl, by rw [onlyOp_withValue]; rfl⟩

theorem formatCV_placed (mk : RegId → Value → Instr) (op : Nat) (a : RegId) (v : Value) :
    (((opcode op).withRa a).withValue v).formatCV mk = .ok (mk a v) :=
  formatCV_ok.2 ⟨a, v, rfl, by rw [onlyOp_withValue]; rfl⟩

theorem formatB_placed (mk : Cond → Label → Instr) (cc : Cond) (l : Label) :
    (branch (Machine.condNumber cc) l).formatB mk = .ok (mk cc l) :=
  formatB_ok.2 ⟨cc, condOfField_ok.2 rfl, rfl, rfl⟩

section
variable {f : Fields} {op : Nat} {i : Instr}

theorem eq_fields_of_formatRRV {mk : RegId → RegId → Value → Instr}
    (hmk : ∀ d a v, (mk d a v).fields = (((opcode op).withRd d).withRa a).withValue v)
    (hop : f.op.toNat = op) (h : f.formatRRV mk = .ok i) : f = i.fields := by
  obtain ⟨d, a, v, rfl, hf⟩ := formatRRV_ok.1 h
  rwa [onlyOp_eq_opcode hop, ← hmk] at hf

theorem eq_fields_of_formatRV {mk : RegId → Value → Instr}
    (hmk : ∀ d v, (mk d v).fields = ((opcode op).withRd d).withValue v)
    (hop : f.op.toNat = op) (h : f.formatRV mk = .ok i) : f = i.fields := by
  obtain ⟨d, v, rfl, hf⟩ := formatRV_ok.1 h
  rwa [onlyOp_eq_opcode hop, ← hmk] at hf

theorem eq_fields_of_formatCV {mk : RegId → Value → Instr}
    (hmk : ∀ a v, (mk a v).fields = ((opcode op).withRa a).withValue v)
    (hop : f.op.toNat = op) (h : f.formatCV mk = .ok i) : f = i.fields := by
  obtain ⟨a, v, rfl, hf⟩ := formatCV_ok.1 h
  rwa [onlyOp_eq_opcode hop, ← hmk] at hf

theorem eq_fields_of_formatB (hop : f.op.toNat = 3) (h : f.formatB Instr.b = .ok i) : f = i.fields := by
  obtain ⟨cc, hcc, rfl, hf⟩ := formatB_ok.1 h
  rw [onlyOp_eq_opcode hop, condOfField_ok.1 hcc] at hf
  exact hf.trans (fields_b cc f.k).symm

theorem eq_fields_of_formatL (hop : f.op.toNat = 4) (h : f.formatL Instr.call = .ok i) : f = i.fields := by
  obtain ⟨rfl, hf⟩ := formatL_ok.1 h
  rwa [onlyOp_eq_opcode hop] at hf

theorem eq_fields_of_formatZ {ins : Instr} (hins : ins.fields = opcode op) (hop : f.op.toNat = op)
    (h : f.formatZ ins = .ok i) : f = i.fields := by
  obtain ⟨rfl, hf⟩ := formatZ_ok.1 h
  rwa [onlyOp_eq_opcode hop, ← hins] at hf

end

/-- Every instruction is read back from its fields, each shape by its format. -/
theorem decode_fields (i : Instr) : i.fields.decode = .ok i := by
  cases i using Instr.shapeCases with
  | ldr d v =>
    rw [fields_ldr, decode, op_withValue]
    exact (formatLD_eq_formatRV _ _).trans (formatRV_placed _ 0 d v)
  | str v a =>
    rw [fields_str, decode, op_withValue]
    exact (formatST_eq_formatCV _ _).trans (formatCV_placed _ 1 a v)
  | mov d v => rw [fields_mov, decode, op_withValue]; exact formatRV_placed .mov 2 d v
  | b cc l => rw [fields_b]; exact formatB_placed .b cc l
  | call l => exact formatL_ok.2 ⟨rfl, rfl⟩
  | ret => rfl
  | hlt => rfl
  | nop => rfl
  | cmp a v => rw [fields_cmp, decode, op_withValue]; exact formatCV_placed .cmp 8 a v
  | neg d v => rw [fields_neg, decode, op_withValue]; exact formatRV_placed .neg 9 d v
  | not d v => rw [fields_not, decode, op_withValue]; exact formatRV_placed .not 10 d v
  | add d a v => rw [fields_add, decode, op_withValue]; exact formatRRV_placed .add 11 d a v
  | sub d a v => rw [fields_sub, decode, op_withValue]; exact formatRRV_placed .sub 12 d a v
  | and d a v => rw [fields_and, decode, op_withValue]; exact formatRRV_placed .and 13 d a v
  | or d a v => rw [fields_or, decode, op_withValue]; exact formatRRV_placed .or 14 d a v
  | xor d a v => rw [fields_xor, decode, op_withValue]; exact formatRRV_placed .xor 15 d a v
  | lsl d a v => rw [fields_lsl, decode, op_withValue]; exact formatRRV_placed .lsl 16 d a v
  | lsr d a v => rw [fields_lsr, decode, op_withValue]; exact formatRRV_placed .lsr 17 d a v
  | asr d a v => rw [fields_asr, decode, op_withValue]; exact formatRRV_placed .asr 18 d a v
  | rol d a v => rw [fields_rol, decode, op_withValue]; exact formatRRV_placed .rol 19 d a v
  | ror d a v => rw [fields_ror, decode, op_withValue]; exact formatRRV_placed .ror 20 d a v

/-- Fields that decode are the fields of the instruction they decode to, each opcode by its format. -/
theorem eq_fields_of_decode {f : Fields} {i : Instr} (h : f.decode = .ok i) : f = i.fields := by
  unfold decode at h
  split at h
  case h_1 hop => exact eq_fields_of_formatRV fields_ldr hop (f.formatLD_eq_formatRV _ ▸ h)
  case h_2 hop => exact eq_fields_of_formatCV (fun a v => fields_str v a) hop (f.formatST_eq_formatCV _ ▸ h)
  case h_3 hop => exact eq_fields_of_formatRV fields_mov hop h
  case h_4 hop => exact eq_fields_of_formatB hop h
  case h_5 hop => exact eq_fields_of_formatL hop h
  case h_6 hop => exact eq_fields_of_formatZ fields_ret hop h
  case h_7 hop => exact eq_fields_of_formatZ fields_hlt hop h
  case h_8 hop => exact eq_fields_of_formatZ fields_nop hop h
  case h_9 hop => exact eq_fields_of_formatCV fields_cmp hop h
  case h_10 hop => exact eq_fields_of_formatRV fields_neg hop h
  case h_11 hop => exact eq_fields_of_formatRV fields_not hop h
  case h_12 hop => exact eq_fields_of_formatRRV fields_add hop h
  case h_13 hop => exact eq_fields_of_formatRRV fields_sub hop h
  case h_14 hop => exact eq_fields_of_formatRRV fields_and hop h
  case h_15 hop => exact eq_fields_of_formatRRV fields_or hop h
  case h_16 hop => exact eq_fields_of_formatRRV fields_xor hop h
  case h_17 hop => exact eq_fields_of_formatRRV fields_lsl hop h
  case h_18 hop => exact eq_fields_of_formatRRV fields_lsr hop h
  case h_19 hop => exact eq_fields_of_formatRRV fields_asr hop h
  case h_20 hop => exact eq_fields_of_formatRRV fields_rol hop h
  case h_21 hop => exact eq_fields_of_formatRRV fields_ror hop h
  case h_22 => cases h

/-- Fields decode to an instruction exactly when they are its fields. -/
theorem decode_eq_ok_iff {f : Fields} {i : Instr} : f.decode = .ok i ↔ f = i.fields :=
  ⟨eq_fields_of_decode, fun h => h ▸ decode_fields i⟩

end Fields

theorem Fields.ofWord_eq_iff {w : Word} {f : Fields} : ofWord w = f ↔ f.toWord = w := by
  constructor
  · rintro rfl
    exact toWord_ofWord w
  · rintro rfl
    exact ofWord_toWord f

/-- A word decodes to an instruction exactly when it is the instruction's word (R66). -/
theorem decode_eq_ok_iff {w : Word} {i : Instr} : decode w = .ok i ↔ encode i = w :=
  Fields.decode_eq_ok_iff.trans Fields.ofWord_eq_iff

end Sys2Proof

section
open Sys2Proof

/-- Settles O2, by `decode_eq_ok_iff` from right to left. -/
theorem decodeOfEncodeIsTheInstruction : Obligations.DecodeOfEncodeIsTheInstruction :=
  fun _ => decode_eq_ok_iff.2 rfl

/-- Settles O3, by `decode_eq_ok_iff` from left to right. -/
theorem encodeOfDecodeIsTheWord : Obligations.EncodeOfDecodeIsTheWord :=
  fun _ _ => decode_eq_ok_iff.1

/-- Settles O1: each worked word is the word of the instruction beside it. -/
theorem workedWordsDecode : Obligations.WorkedWordsDecode := by
  simp only [Obligations.WorkedWordsDecode, decode_eq_ok_iff]
  decide

end

/-! ## The rows of the opcode map

A row's mask keeps the fields its format fixes and clears the operands' bits, its match is the row's word with every
operand 0 (R58, R60). Both are words put together from fields, so that a word matches a row exactly when its fields do
(`Fields.matches_iff`), and for each format the fields that match a row are those of the row's instructions
(`RowExact`). -/

namespace Sys2Proof

/-! The operand field of a Value (R58): its bits, and the part of `k` that its kind fixes at 0. -/

theorem setWidth_and_allOnes_shiftLeft {n m : Nat} (b : BitVec n) :
    b.setWidth m &&& BitVec.allOnes m <<< n = 0 := by
  apply BitVec.eq_of_getLsbD_eq
  intro j hj
  by_cases hn : j < n
  · simp [hn]
  · simp [BitVec.getLsbD_of_ge b j (Nat.le_of_not_lt hn)]

theorem setWidth_setWidth_of_and_eq_zero {n m : Nat} {k : BitVec m}
    (hk : k &&& BitVec.allOnes m <<< n = 0) : (k.setWidth n).setWidth m = k := by
  apply BitVec.eq_of_getLsbD_eq
  intro j hj
  have hbit := congrArg (BitVec.getLsbD · j) hk
  by_cases hn : j < n
  · simp [hj, hn]
  · simpa [hj, hn, show j - n < m by omega] using hbit

namespace Value

/-- The field `i` of a Value. -/
def selector : Value → BitVec 1
  | .reg _ => 0
  | .imm _ => 1

/-- The field `k` of a Value. -/
def bits : Value → BitVec 16
  | .reg r => (fieldOfReg r).setWidth 16
  | .imm k => k.setWidth 16

/-- The must-be-zero part of `k` for Values of this kind. -/
def mask : Value → BitVec 16
  | .reg _ => BitVec.allOnes 16 <<< 3
  | .imm _ => BitVec.allOnes 16 <<< 8

@[simp] theorem bits_and_mask (v : Value) : v.bits &&& v.mask = 0 := by
  cases v with
  | reg r => exact setWidth_and_allOnes_shiftLeft (fieldOfReg r)
  | imm k => exact setWidth_and_allOnes_shiftLeft k

theorem bits_lt_of_reg {v : Value} (h : v.selector = 0) : v.bits.toNat < 8 := by
  cases v with
  | reg r => simp [bits]
  | imm k => cases h

theorem bits_lt_of_imm {v : Value} (h : v.selector = 1) : v.bits.toNat < 256 := by
  cases v with
  | reg r => cases h
  | imm k => simpa [bits] using k.isLt

/-- Where the must-be-zero part is 0, the field holds a Value of the same kind. -/
theorem exists_of_and_mask {v : Value} {k : BitVec 16} (hk : k &&& v.mask = 0) :
    ∃ v' : Value, v'.selector = v.selector ∧ v'.mask = v.mask ∧ v'.bits = k := by
  cases v with
  | reg r =>
    refine ⟨.reg (regOfField (k.setWidth 3)), rfl, rfl, ?_⟩
    rw [bits, fieldOfReg_regOfField]
    exact setWidth_setWidth_of_and_eq_zero hk
  | imm b => exact ⟨.imm (k.setWidth 8), rfl, rfl, setWidth_setWidth_of_and_eq_zero hk⟩

end Value

namespace Fields

theorem withValue_eq (f : Fields) (v : Value) :
    f.withValue v = { f with i := v.selector, k := v.bits } := by cases v <;> rfl

/-! Matching a row, field by field. -/

/-- Two words' fields, bit by bit. -/
def and (f g : Fields) : Fields where
  op   := f.op &&& g.op
  cond := f.cond &&& g.cond
  rd   := f.rd &&& g.rd
  ra   := f.ra &&& g.ra
  i    := f.i &&& g.i
  k    := f.k &&& g.k

theorem ofWord_and (w m : Word) : ofWord (w &&& m) = (ofWord w).and (ofWord m) := by
  simp [ofWord, and, BitVec.extractLsb'_and]

/-- The fields' word matches the row: `(W & mask) == match`. -/
def Matches (f : Fields) (row : Word × Word) : Prop := f.toWord &&& row.2 = row.1

/-- The match and the mask of a row, from their fields: `op`, `cond` and `i` are fixed at the values given, and
of the other fields the bits given are fixed at 0. -/
def row (op : Nat) (cond : BitVec 4) (i : BitVec 1) (rd ra : BitVec 3) (k : BitVec 16) : Word × Word :=
  (toWord ⟨BitVec.ofNat 5 op, cond, 0, 0, i, 0⟩,
    toWord ⟨BitVec.allOnes 5, BitVec.allOnes 4, rd, ra, BitVec.allOnes 1, k⟩)

theorem matches_iff {f : Fields} {op : Nat} {cond : BitVec 4} {i : BitVec 1} {rd ra : BitVec 3}
    {k : BitVec 16} :
    f.Matches (row op cond i rd ra k) ↔
      f.op = BitVec.ofNat 5 op ∧ f.cond = cond ∧ f.rd &&& rd = 0 ∧ f.ra &&& ra = 0 ∧ f.i = i ∧
        f.k &&& k = 0 := by
  rw [Matches, row, eq_comm, ← ofWord_eq_iff, ofWord_and, ofWord_toWord, ofWord_toWord]
  simp only [and, BitVec.and_allOnes, Fields.mk.injEq]

/-- The row of a Value operand of the kind of `v`, with a mask for each register field. -/
def valueRow (op : Nat) (rd ra : BitVec 3) : Value → Word × Word
  | .reg _ => row op 0 0 rd ra 0xFFF8
  | .imm _ => row op 0 1 rd ra 0xFF00

theorem valueRow_eq_row (op : Nat) (rd ra : BitVec 3) (v : Value) :
    valueRow op rd ra v = row op 0 v.selector rd ra v.mask := by cases v <;> rfl

/-- Fields that match the row of a Value operand hold a Value of the row's kind. -/
theorem exists_of_matches_valueRow {f : Fields} {op : Nat} {rd ra : BitVec 3} {v : Value}
    (h : f.Matches (valueRow op rd ra v)) :
    f.rd &&& rd = 0 ∧ f.ra &&& ra = 0 ∧ ∃ v', valueRow op rd ra v' = valueRow op rd ra v ∧
      f = ⟨BitVec.ofNat 5 op, 0, f.rd, f.ra, v'.selector, v'.bits⟩ := by
  rw [valueRow_eq_row] at h
  obtain ⟨hop, hcond, hrd, hra, hi, hk⟩ := matches_iff.1 h
  obtain ⟨v', hselector, hmask, hbits⟩ := Value.exists_of_and_mask hk
  refine ⟨hrd, hra, v', by simp only [valueRow_eq_row, hselector, hmask], ?_⟩
  rw [hselector, hbits, ← hi, ← hcond, ← hop]

end Fields

open Fields Machine

/-- The fields that match the row of `i` are the fields of the row's instructions: its own, and no others. -/
structure RowExact (i : Instr) : Prop where
  self : i.fields.Matches (mapRow i)
  only : ∀ f : Fields, f.Matches (mapRow i) → ∃ j, f = j.fields ∧ mapRow j = mapRow i

/-! One lemma per format: the fields it fixes are those the row's mask keeps, and any register fields and operand
bits that the mask clears are those of some instruction of the row. -/

section
variable {op : Nat}

theorem rowExact_RRV {mk : RegId → RegId → Value → Instr}
    (hmk : ∀ d a v, (mk d a v).fields = (((opcode op).withRd d).withRa a).withValue v)
    (hrow : ∀ d a v, mapRow (mk d a v) = valueRow op 0 0 v) (d a : RegId) (v : Value) :
    RowExact (mk d a v) where
  self := by
    rw [hmk, hrow, withValue_eq, valueRow_eq_row]
    exact matches_iff.2 ⟨rfl, rfl, BitVec.and_zero, BitVec.and_zero, rfl, v.bits_and_mask⟩
  only f h := by
    rw [hrow] at h
    obtain ⟨-, -, v', hv', hf⟩ := exists_of_matches_valueRow h
    refine ⟨mk (regOfField f.rd) (regOfField f.ra) v', ?_, by rw [hrow, hrow, hv']⟩
    rw [hmk, withValue_eq]
    simpa [withRd, withRa, opcode] using hf

theorem rowExact_RV {mk : RegId → Value → Instr}
    (hmk : ∀ d v, (mk d v).fields = ((opcode op).withRd d).withValue v)
    (hrow : ∀ d v, mapRow (mk d v) = valueRow op 0 (BitVec.allOnes 3) v) (d : RegId) (v : Value) :
    RowExact (mk d v) where
  self := by
    rw [hmk, hrow, withValue_eq, valueRow_eq_row]
    exact matches_iff.2 ⟨rfl, rfl, BitVec.and_zero, BitVec.and_allOnes, rfl, v.bits_and_mask⟩
  only f h := by
    rw [hrow] at h
    obtain ⟨-, hra, v', hv', hf⟩ := exists_of_matches_valueRow h
    rw [BitVec.and_allOnes] at hra
    refine ⟨mk (regOfField f.rd) v', ?_, by rw [hrow, hrow, hv']⟩
    rw [hmk, withValue_eq]
    simpa [withRd, opcode, hra] using hf

theorem rowExact_CV {mk : RegId → Value → Instr}
    (hmk : ∀ a v, (mk a v).fields = ((opcode op).withRa a).withValue v)
    (hrow : ∀ a v, mapRow (mk a v) = valueRow op (BitVec.allOnes 3) 0 v) (a : RegId) (v : Value) :
    RowExact (mk a v) where
  self := by
    rw [hmk, hrow, withValue_eq, valueRow_eq_row]
    exact matches_iff.2 ⟨rfl, rfl, BitVec.and_allOnes, BitVec.and_zero, rfl, v.bits_and_mask⟩
  only f h := by
    rw [hrow] at h
    obtain ⟨hrd, -, v', hv', hf⟩ := exists_of_matches_valueRow h
    rw [BitVec.and_allOnes] at hrd
    refine ⟨mk (regOfField f.ra) v', ?_, by rw [hrow, hrow, hv']⟩
    rw [hmk, withValue_eq]
    simpa [withRa, opcode, hrd] using hf

/-- Formats B and L: every label is one of the row (R59, R60). -/
theorem rowExact_label {cond : BitVec 4} {mk : Label → Instr}
    (hmk : ∀ l, (mk l).fields = ⟨BitVec.ofNat 5 op, cond, 0, 0, 0, l⟩)
    (hrow : ∀ l, mapRow (mk l) = row op cond 0 (BitVec.allOnes 3) (BitVec.allOnes 3) 0) (l : Label) :
    RowExact (mk l) where
  self := by
    rw [hmk, hrow]
    exact matches_iff.2 ⟨rfl, rfl, BitVec.and_allOnes, BitVec.and_allOnes, rfl, BitVec.and_zero⟩
  only f h := by
    rw [hrow] at h
    obtain ⟨hop, hcond, hrd, hra, hi, -⟩ := matches_iff.1 h
    rw [BitVec.and_allOnes] at hrd hra
    refine ⟨mk f.k, ?_, by rw [hrow, hrow]⟩
    rw [hmk, Fields.mk.injEq]
    exact ⟨hop, hcond, hrd, hra, hi, rfl⟩

theorem rowExact_Z {ins : Instr} (hins : ins.fields = opcode op)
    (hrow : mapRow ins = row op 0 0 (BitVec.allOnes 3) (BitVec.allOnes 3) (BitVec.allOnes 16)) :
    RowExact ins where
  self := by
    rw [hins, hrow]
    exact matches_iff.2 ⟨rfl, rfl, BitVec.and_allOnes, BitVec.and_allOnes, rfl, BitVec.and_allOnes⟩
  only f h := by
    rw [hrow] at h
    obtain ⟨hop, hcond, hrd, hra, hi, hk⟩ := matches_iff.1 h
    rw [BitVec.and_allOnes] at hrd hra hk
    refine ⟨ins, ?_, rfl⟩
    rw [hins, opcode, Fields.mk.injEq]
    exact ⟨hop, hcond, hrd, hra, hi, hk⟩

end

/-- The opcode map of spec/30_encoding.md, each row by its format. -/
theorem rowExact (i : Instr) : RowExact i := by
  cases i using Instr.shapeCases with
  | ldr d v => exact rowExact_RV fields_ldr (fun _ v => by cases v <;> rfl) d v
  | str v a => exact rowExact_CV (fun _ _ => fields_str _ _) (fun _ v => by cases v <;> rfl) a v
  | mov d v => exact rowExact_RV fields_mov (fun _ v => by cases v <;> rfl) d v
  | b cc l => exact rowExact_label (fields_b cc) (fun _ => by cases cc <;> rfl) l
  | call l => exact rowExact_label fields_call (fun _ => rfl) l
  | ret => exact rowExact_Z fields_ret rfl
  | hlt => exact rowExact_Z fields_hlt rfl
  | nop => exact rowExact_Z fields_nop rfl
  | cmp a v => exact rowExact_CV fields_cmp (fun _ v => by cases v <;> rfl) a v
  | neg d v => exact rowExact_RV fields_neg (fun _ v => by cases v <;> rfl) d v
  | not d v => exact rowExact_RV fields_not (fun _ v => by cases v <;> rfl) d v
  | add d a v => exact rowExact_RRV fields_add (fun _ _ v => by cases v <;> rfl) d a v
  | sub d a v => exact rowExact_RRV fields_sub (fun _ _ v => by cases v <;> rfl) d a v
  | and d a v => exact rowExact_RRV fields_and (fun _ _ v => by cases v <;> rfl) d a v
  | or d a v => exact rowExact_RRV fields_or (fun _ _ v => by cases v <;> rfl) d a v
  | xor d a v => exact rowExact_RRV fields_xor (fun _ _ v => by cases v <;> rfl) d a v
  | lsl d a v => exact rowExact_RRV fields_lsl (fun _ _ v => by cases v <;> rfl) d a v
  | lsr d a v => exact rowExact_RRV fields_lsr (fun _ _ v => by cases v <;> rfl) d a v
  | asr d a v => exact rowExact_RRV fields_asr (fun _ _ v => by cases v <;> rfl) d a v
  | rol d a v => exact rowExact_RRV fields_rol (fun _ _ v => by cases v <;> rfl) d a v
  | ror d a v => exact rowExact_RRV fields_ror (fun _ _ v => by cases v <;> rfl) d a v

end Sys2Proof

section
open Sys2Proof Sys2Proof.Machine

/-- Settles O4: a word that matches the row is an instruction of the row by `RowExact.only`; an instruction of the row
matches its own row, which is the same one, by `RowExact.self`. -/
theorem opcodeMapRowsAreExact : Obligations.OpcodeMapRowsAreExact := by
  intro i w
  constructor
  · intro h
    obtain ⟨j, hj, hrow⟩ := (rowExact i).only (Fields.ofWord w) (by rwa [Fields.Matches, Fields.toWord_ofWord])
    exact ⟨j, Fields.decode_eq_ok_iff.2 hj, hrow⟩
  · rintro ⟨j, hj, hrow⟩
    rw [← hrow, ← decode_eq_ok_iff.1 hj]
    exact (rowExact j).self

end

/-! ## Words the decoder refuses

The two reserved ranges (R62, R63), and the unused bits that R64 asks to be 0: those of an instruction's own fields
are, and no other fields decode. -/

namespace Sys2Proof.Fields

/-- An opcode number from 21 on is reserved (R62). -/
theorem decode_of_reserved_opcode {f : Fields} (hop : 21 ≤ f.op.toNat) :
    f.decode = .error .reservedOpcode := by
  unfold decode
  split
  case h_22 => rfl
  all_goals omega

/-- A `b` word whose unused fields are 0 and whose condition number is 15 is reserved (R63). -/
theorem decode_of_reserved_condition (label : BitVec 16) :
    decode ⟨3, 15, 0, 0, 0, label⟩ = .error .reservedCondition := rfl

/-- What R64 asks of fields that decode: each field that the format of the opcode does not use is 0, and so is the
must-be-zero part of `k` beside a register and beside an immediate. -/
def UnusedBitsZero (f : Fields) : Prop :=
  (f.op ≠ 3 → f.cond = 0) ∧
  (f.op ∈ [1, 3, 4, 5, 6, 7, 8] → f.rd = 0) ∧
  (f.op ∈ [0, 2, 3, 4, 5, 6, 7, 9, 10] → f.ra = 0) ∧
  (f.op ∈ [3, 4, 5, 6, 7] → f.i = 0) ∧
  (f.op ∈ [5, 6, 7] → f.k = 0) ∧
  (f.op ∉ [3, 4, 5, 6, 7] → f.i = 1 → f.k.toNat < 256) ∧
  (f.op ∉ [3, 4, 5, 6, 7] → f.i = 0 → f.k.toNat < 8)

theorem unusedBitsZero_fields (i : Instr) : i.fields.UnusedBitsZero := by
  cases i using Instr.shapeCases with
  | b | call | ret | hlt | nop => simp [UnusedBitsZero, opcode, branch, withLabel]
  | _ =>
    simp +contextual [UnusedBitsZero, opcode, withRd, withRa, withValue_eq, Value.bits_lt_of_imm,
      Value.bits_lt_of_reg]

end Sys2Proof.Fields

section
open Sys2Proof

/-- Settles O5: from 0xA8000000 on the opcode number is at least 21; from 0x1F800000 to 0x1F80FFFF it is 3, the
condition number 15 and every field below it but the label 0. -/
theorem reservedNumbersAreRefused : Obligations.ReservedNumbersAreRefused := by
  intro w
  constructor
  · intro hlow
    apply Fields.decode_of_reserved_opcode
    simp only [Fields.ofWord, BitVec.extractLsb'_toNat, Nat.shiftRight_eq_div_pow]
    omega
  · rintro ⟨hlow, hhigh⟩
    have hfields : Fields.ofWord w = ⟨3, 15, 0, 0, 0, w.extractLsb' 0 16⟩ := by
      simp only [Fields.ofWord, Fields.mk.injEq]
      refine ⟨?_, ?_, ?_, ?_, ?_, trivial⟩ <;> apply BitVec.eq_of_toNat_eq <;>
        simp only [BitVec.extractLsb'_toNat, Nat.shiftRight_eq_div_pow, BitVec.ofNat_eq_ofNat,
          BitVec.toNat_ofNat] <;> omega
    rw [decode, hfields]
    exact Fields.decode_of_reserved_condition _

/-- Settles O6: fields that decode are an instruction's fields, and its format leaves the unused bits 0. -/
theorem unusedBitsAreRefused : Obligations.UnusedBitsAreRefused := by
  rintro f ⟨i, hi⟩
  obtain rfl := Fields.decode_eq_ok_iff.1 hi
  exact Fields.unusedBitsZero_fields i

end

/-! ## No refusal, and the branches

A step hands on what `exec` answers, which is never a refusal; a branch is an Effect of at most a jump, which always
commits. -/

namespace Sys2Proof.Machine

/-- A step refuses only what the decoded instruction's `exec` refuses (R81). -/
theorem step_refused {s : State} {r : Refusal} (h : step s = .refused r) : ∃ i, exec i s = .refused r := by
  unfold step at h
  split at h
  · cases h
  · split at h
    · cases h
    · split at h
      · cases h
      · exact ⟨_, h⟩

/-- An instruction whose Effect is a jump at most completes, and moves the pc only (R88). -/
theorem exec_of_jump {i : Instr} {s : State} {j : Option Pc} (h : effectOf i s = .ok { jump := j }) :
    ∃ t, exec i s = .next t ∧ t.proc.pc = j.getD (s.proc.pc + 1) ∧ KeepsData s t ∧ KeepsStack s t ∧
      KeepsHalted s t :=
  ⟨_, exec_next.2 ⟨_, _, h, rfl, rfl⟩, rfl, ⟨fun _ _ => rfl, fun _ _ => rfl, rfl, rfl, rfl, rfl⟩, rfl, rfl⟩

theorem branchEffect_taken {cc : Cond} {l : Label} {labels : List (Label × Pc)} {p : Proc} {t : Pc}
    (hcc : condHolds cc p.flags = true) (hl : lookupLabel labels l = .ok t) :
    branchEffect cc l labels p = .ok { jump := some t } := by
  simp [branchEffect, hcc, hl]

/-- A branch that is not taken looks no label up (the spec's decision D11). -/
theorem branchEffect_not_taken {cc : Cond} {p : Proc} (hcc : condHolds cc p.flags = false) (l : Label)
    (labels : List (Label × Pc)) : branchEffect cc l labels p = .ok {} := by
  simp [branchEffect, hcc]

/-- A branch's word as a number (R57, R60). -/
theorem encodesAs_b (cc : Cond) (l : Label) :
    EncodesAs (Instr.b cc l) 3 (condNumber cc) 0 0 l.toNat := by
  apply encodesAs_of_fields <;> rw [fields_b]
  · rfl
  · cases cc <;> rfl
  · rfl
  · rfl
  · simp [Fields.branch, Fields.opcode]

end Sys2Proof.Machine

section
open Sys2Proof Sys2Proof.Machine

/-- Settles O10: each instruction's `exec` performs its Effect, and `perform` refuses nothing. -/
theorem stepIsNeverRefused : Obligations.StepIsNeverRefused := by
  intro s r h
  obtain ⟨i, hi⟩ := step_refused h
  rw [exec_eq_perform] at hi
  exact s.perform_not_refused _ r hi

/-- Settles O56: taken and untaken branches are jumps at most, and a taken one looks its label up. -/
theorem branchJumpsWhenTheConditionHolds : Obligations.BranchJumpsWhenTheConditionHolds := by
  intro cc l s
  refine ⟨encodesAs_b cc l, fun target hcc hl => ?_, fun hcc => ?_, fun hcc habsent => ?_⟩
  · have heffect : effectOf (Instr.b cc l) s = .ok { jump := some target } := by
      rw [effectOf_b, branchEffect_taken hcc hl]
    exact ⟨heffect, exec_of_jump heffect⟩
  · have heffect : effectOf (Instr.b cc l) s = .ok {} := by
      rw [effectOf_b, branchEffect_not_taken hcc]
    exact ⟨heffect, exec_of_jump heffect⟩
  · exact exec_unknownLabel.2 ⟨.inr ⟨cc, rfl, hcc⟩, habsent⟩

end

/-! ## The step cycle, its record and its report

The decoded instruction is the whole step of a running core (R81, R82); a fault that stops the core is no
instruction's; a run stops where a step stops (R101). -/

namespace Sys2Proof.Machine

theorem step_eq_exec {s : State} {w : Word} {i : Instr} (hrun : s.proc.halted = false)
    (hw : s.code[s.proc.pc]? = some w) (hi : decode w = .ok i) : step s = exec i s := by
  simp [step, State.fetch, hrun, hw, hi]

/-- An instruction never raises a stop condition: those are the step's own (R186). -/
theorem not_isStop_of_exec_fault {i : Instr} {s : State} {f : Fault} (h : exec i s = .fault f) : ¬ IsStop f := by
  obtain ⟨l, rfl, -⟩ | ⟨rfl, -⟩ := exec_fault_cases.1 h <;> simp [IsStop]

theorem step_stoppedHalted {s : State} : step s = .fault .stoppedHalted ↔ s.proc.halted = true := by
  rw [step_fault]
  constructor
  · rintro (⟨hhalted, -⟩ | ⟨-, -, ⟨⟩⟩ | ⟨-, w, -, ⟨-, ⟨⟩⟩ | ⟨i, -, hexec⟩⟩)
    · exact hhalted
    · exact absurd (.inl rfl) (not_isStop_of_exec_fault hexec)
  · intro hhalted
    exact .inl ⟨hhalted, rfl⟩

theorem step_stoppedPcOutOfRange {s : State} :
    step s = .fault .stoppedPcOutOfRange ↔ s.proc.halted = false ∧ s.code.length ≤ s.proc.pc := by
  rw [step_fault, ← List.getElem?_eq_none_iff]
  constructor
  · rintro (⟨-, ⟨⟩⟩ | ⟨hrun, hend, -⟩ | ⟨-, w, -, ⟨-, ⟨⟩⟩ | ⟨i, -, hexec⟩⟩)
    · exact ⟨hrun, hend⟩
    · exact absurd (.inr rfl) (not_isStop_of_exec_fault hexec)
  · rintro ⟨hrun, hend⟩
    exact .inr (.inl ⟨hrun, hend, rfl⟩)

/-- The report takes no part in how a step faults (R28, R187). -/
theorem step_fault_set_report {s : State} {f : Fault} (report : Option Fault) (h : step s = .fault f) :
    step { s with report := report } = .fault f :=
  (historyAndReportAreInvisible s s.history report).2 f h

end Sys2Proof.Machine

section
open Sys2Proof Sys2Proof.Machine

/-- Settles O7: the halted test, the range test and the decoder let the word's instruction through. -/
theorem stepRunsTheDecodedInstruction : Obligations.StepRunsTheDecodedInstruction :=
  fun _ _ _ => step_eq_exec

/-- Settles O8: of the step's faults, only its two own tests give a stop. -/
theorem stepStopsWhenHaltedOrOutOfRange : Obligations.StepStopsWhenHaltedOrOutOfRange :=
  fun _ => ⟨step_stoppedHalted, step_stoppedPcOutOfRange⟩

/-- Settles O13, by induction on the fuel: the run either goes on from the next state or stops at a step's fault,
which the report it writes does not change. -/
theorem runEndsAtTheReportedFault : Obligations.RunEndsAtTheReportedFault := by
  intro fuel
  induction fuel with
  | zero => intro s t f h; cases h
  | succ fuel ih =>
    intro s t f h
    unfold State.run at h
    split at h
    case h_1 s' hstep => exact ih s' t f h
    case h_2 g hstep =>
      cases h
      exact ⟨step_fault_set_report _ hstep, rfl⟩
    case h_3 r hstep => cases h

/-- Settles O27: completing is one commit and one record of it, and the record is `recordHistory` by depth. -/
theorem everyStepIsRecorded : Obligations.EveryStepIsRecorded := by
  intro i s t h
  obtain ⟨e, p, he, hp, rfl⟩ := exec_next.1 h
  refine ⟨e, he, hp, fun hdepth => ?_, fun d hdepth => ?_, rfl⟩
  · rw [State.stepped_history, hdepth, recordHistory_none]
  · rw [State.stepped_history, hdepth, recordHistory]

end

/-! ## Commit and its inverse, field by field

An Effect that writes inside the memory, if it writes, always has an inverse (`invert_of_writesInside`) and, with the
unbounded call stack, always commits (`exists_apply_none`). Each field's inverse takes back that field's commit, only
the halt field's not always; together they are the exact state that a commit and its undo leave
(`apply_invert_of_apply`). -/

namespace Sys2Proof.Machine

/-- The Effect's write, if it has one, is at a valid address (R33). -/
def Effect.WritesInside (e : Effect) : Prop := ∀ a v, e.write = some (a, v) → a < Config.memSize

section
variable {depth : Option Nat} {p q : Proc} {e : Effect}

/-- An Effect that commits writes inside the memory (R87, R91). -/
theorem writesInside_of_apply (h : apply depth p e = .ok q) : e.WritesInside := by
  intro a v he
  obtain ⟨hw, -⟩ := apply_ok.1 h
  rw [he, applyWrite_some] at hw
  exact (memWrite_ok.1 hw).1

/-- With the unbounded call stack a valid address is all that a commit needs (R91, R185). -/
theorem exists_apply_none (p : Proc) (h : e.WritesInside) : ∃ q, apply none p e = .ok q := by
  cases hp : apply none p e with
  | ok q => exact ⟨q, rfl⟩
  | error f =>
    obtain ⟨a, v, he, ha, -⟩ | ⟨-, _, -, _, ⟨⟩, -⟩ := apply_error hp
    exact absurd (h a v he) (Nat.not_lt.2 ha)

/-! What a commit makes of a register and of a byte (R87). -/

theorem apply_reg_of_some {r' : RegId} {v : Byte} (h : apply depth p e = .ok q) (he : e.reg = some (r', v))
    (r : RegId) : q.reg r = if r = r' then v else p.reg r := by
  obtain ⟨-, -, hx, -⟩ := apply_ok.1 h
  rw [Proc.reg, hx, he, applyReg_some, get_setReg, Proc.reg]

theorem apply_read_of_some {a' : Nat} {v : Byte} (hp : p.wf) (h : apply depth p e = .ok q)
    (he : e.write = some (a', v)) (a : Nat) : q.mem.read a = if a = a' then v else p.mem.read a := by
  obtain ⟨hw, -⟩ := apply_ok.1 h
  rw [he, applyWrite_some] at hw
  rw [(memWrite_ok.1 hw).2, Memory.read_write hp]

end

/-! What a commit makes of each flag (R86). -/

@[simp] theorem applyFlags_z (f : Flags) (u : Option FlagUpdate) :
    (applyFlags f u).z = (u.bind FlagUpdate.z).getD f.z := by cases u <;> rfl
@[simp] theorem applyFlags_c (f : Flags) (u : Option FlagUpdate) :
    (applyFlags f u).c = (u.bind FlagUpdate.c).getD f.c := by cases u <;> rfl
@[simp] theorem applyFlags_n (f : Flags) (u : Option FlagUpdate) :
    (applyFlags f u).n = (u.bind FlagUpdate.n).getD f.n := by cases u <;> rfl
@[simp] theorem applyFlags_v (f : Flags) (u : Option FlagUpdate) :
    (applyFlags f u).v = (u.bind FlagUpdate.v).getD f.v := by cases u <;> rfl

/-! The inverse of an Effect (R93 to R98). -/

theorem invertWrite_of_writesInside {e : Effect} (m : Memory) (h : e.WritesInside) :
    invertWrite m e.write = .ok (e.write.map fun u => (u.1, m.read u.1)) := by
  cases he : e.write with
  | none => rfl
  | some u =>
    have hread : memRead m u.1 = .ok (m.read u.1) := memRead_ok.2 ⟨h u.1 u.2 he, rfl⟩
    simp [invertWrite, hread]

/-- The Effect that carries what `e` overwrites in `p`, field by field (R93 to R98). -/
def inverseOf (p : Proc) (e : Effect) : Effect where
  flags := e.flags.map (invertFlags p.flags)
  write := e.write.map fun u => (u.1, p.mem.read u.1)
  reg := e.reg.map fun u => (u.1, p.reg u.1)
  jump := some p.pc
  stack := invertStack p.cs e.stack
  halt := invertHalt e.halt

theorem invert_of_writesInside {e : Effect} (p : Proc) (h : e.WritesInside) :
    invert p e = .ok (inverseOf p e) :=
  invert_ok.2 ⟨invertWrite_of_writesInside p.mem h, rfl, rfl, rfl, rfl, rfl⟩

@[simp] theorem invertStack_none (cs : List Pc) : invertStack cs none = none := rfl

@[simp] theorem invertStack_push (cs : List Pc) (v : Pc) : invertStack cs (some (.push v)) = some .pop := rfl

@[simp] theorem invertStack_pop (cs : List Pc) : invertStack cs (some .pop) = (top cs).map .push := rfl

theorem invertHalt_of_ne {halt : Option Bool} (h : halt ≠ some true) : invertHalt halt = none := by
  unfold invertHalt
  split
  · exact absurd rfl h
  · rfl

/-! Each field's inverse takes back its commit (R99). -/

/-- A sub-field that overwrote a flag is undone by the flag's value, an absent one by nothing. -/
theorem getD_map_const_getD (o : Option Bool) (b : Bool) : (o.map fun _ => b).getD (o.getD b) = b := by
  cases o <;> rfl

theorem applyFlags_invertFlags (f : Flags) (u : Option FlagUpdate) :
    applyFlags (applyFlags f u) (u.map (invertFlags f)) = f := by
  cases u with
  | none => rfl
  | some u => simp only [Option.map_some, applyFlags, invertFlags, getD_map_const_getD]

theorem applyReg_invert (x : Vector Byte 8) (r : Option (RegId × Byte)) :
    applyReg (applyReg x r) (r.map fun u => (u.1, x.get u.1)) = x := by
  cases r with
  | none => rfl
  | some u => exact setReg_setReg_get x u.1 u.2

theorem applyWrite_invert {m m' : Memory} {w : Option (Nat × Byte)} (hm : m.wf = true)
    (h : applyWrite m w = .ok m') : applyWrite m' (w.map fun u => (u.1, m.read u.1)) = .ok m := by
  cases w with
  | none => exact congrArg Except.ok (Except.ok.inj h).symm
  | some u =>
    obtain ⟨ha, rfl⟩ := memWrite_ok.1 h
    exact memWrite_ok.2 ⟨ha, (Memory.write_write_read hm ha).symm⟩

/-- The entry a pop removed has room again: the stack was within its depth with it (R97, R185). -/
theorem applyStack_invertStack {depth : Option Nat} {cs cs' : List Pc} {op : Option StackOp}
    (hcs : StackWithin depth cs) (h : applyStack depth cs op = .ok cs') :
    applyStack depth cs' (invertStack cs op) = .ok cs := by
  cases op with
  | none => exact congrArg Except.ok (Except.ok.inj h).symm
  | some op =>
    cases op with
    | push v =>
      obtain ⟨-, rfl⟩ := push_ok.1 h
      simp
    | pop =>
      obtain rfl := Except.ok.inj h
      cases htop : top cs with
      | none =>
        obtain rfl := top_eq_none.1 htop
        rfl
      | some v =>
        have hback := pop_append_top htop
        rw [invertStack_pop, htop]
        refine push_ok.2 ⟨fun d hd => ?_, hback.symm⟩
        have hlength := hcs d hd
        rw [← hback, List.length_append, List.length_singleton] at hlength
        exact hlength

/-! The state that a commit and its undo leave. -/

section
variable {depth : Option Nat} {p q : Proc} {e : Effect}

/-- Undoing a commit restores the state before it but for the halted flag, which the halt fields of the Effect and of
its inverse make (R98, R99). -/
theorem apply_inverseOf (hp : p.wf) (hcs : StackWithin depth p.cs) (h : apply depth p e = .ok q) :
    apply depth q (inverseOf p e) =
      .ok { p with halted := (invertHalt e.halt).getD (e.halt.getD p.halted) } := by
  obtain ⟨hw, hs, hx, hf, -, hh⟩ := apply_ok.1 h
  refine apply_ok.2 ⟨applyWrite_invert hp hw, applyStack_invertStack hcs hs, ?_, ?_, rfl, ?_⟩
  · rw [hx]
    exact (applyReg_invert p.x e.reg).symm
  · rw [hf]
    exact (applyFlags_invertFlags p.flags e.flags).symm
  · rw [hh]
    rfl

/-- A halt field is undone exactly where the state was not halted: its inverse only clears the flag (R98, R100). -/
theorem halt_undone_iff (halt : Option Bool) (b : Bool) :
    (invertHalt halt).getD (halt.getD b) = b ↔ halt = none ∨ b = false := by
  rcases halt with _ | _ | _ <;> simp [invertHalt, eq_comm]

/-- The round trip with its exact condition (R99, R100, conflict C7). -/
theorem apply_inverseOf_eq_iff (hp : p.wf) (hcs : StackWithin depth p.cs) (h : apply depth p e = .ok q) :
    apply depth q (inverseOf p e) = .ok p ↔ e.halt = none ∨ p.halted = false := by
  rw [apply_inverseOf hp hcs h, ← halt_undone_iff, Except.ok.injEq]
  constructor
  · exact congrArg Proc.halted
  · intro hhalt
    rw [hhalt]

/-- A link of a history can be walked back: the step cycle commits in running states only (R99, R103). -/
theorem Link.apply_inverseOf (h : Link depth p e q) : apply depth q (inverseOf p e) = .ok p := by
  obtain ⟨hp, hcs, hrun, happly⟩ := h
  exact (apply_inverseOf_eq_iff hp hcs happly).2 (.inr hrun)

theorem Link.invert (h : Link depth p e q) : invert p e = .ok (inverseOf p e) := by
  obtain ⟨-, -, -, happly⟩ := h
  exact invert_of_writesInside p (writesInside_of_apply happly)

end

end Sys2Proof.Machine

section
open Sys2Proof Sys2Proof.Machine

/-- Settles O30: the write is the first that `Apply` and `Invert` look at, and it is beyond the bound. -/
theorem writeBeyondMemoryIsOutOfRange : Obligations.WriteBeyondMemoryIsOutOfRange := by
  intro depth p e a v he ha
  constructor
  · simp [apply, he, memWrite_of_le p.mem v ha]
  · simp [invert, invertWrite, he, memRead_of_le p.mem ha]

/-- Settles O29: the commit succeeds because the address is valid and the stack unbounded, and does what the lemma of
each field says. -/
theorem applyCommitsEveryField : Obligations.ApplyCommitsEveryField := by
  intro p e hp hinside
  obtain ⟨q, hq⟩ := exists_apply_none p hinside
  obtain ⟨-, hs, -, hflags, hpc, hhalted⟩ := apply_ok.1 hq
  refine ⟨q, hq, ?_, ?_, ?_, ?_, fun r => ?_, fun a => ?_, ?_, ?_, ?_, ?_, ?_, ?_, ?_⟩
  · rw [hflags, applyFlags_z]
  · rw [hflags, applyFlags_c]
  · rw [hflags, applyFlags_n]
  · rw [hflags, applyFlags_v]
  · cases he : e.reg with
    | none => exact apply_reg_of_ne hq (by simp [he])
    | some u => exact apply_reg_of_some hq he r
  · cases he : e.write with
    | none => simp only [apply_mem_of_none hq he]
    | some u => exact apply_read_of_some hp hq he a
  · intro hj
    rw [hpc, hj, Option.getD_none]
  · intro t hj
    rw [hpc, hj, Option.getD_some]
  · intro hop
    rw [hop] at hs
    exact (Except.ok.inj hs).symm
  · intro v hop
    rw [hop, applyStack_push] at hs
    exact (push_ok.1 hs).2
  · intro hop
    rw [hop] at hs
    exact (Except.ok.inj hs).symm
  · intro hh
    rw [hhalted, hh, Option.getD_none]
  · intro b hh
    rw [hhalted, hh, Option.getD_some]

/-- Settles O32: the inverse is `inverseOf`, whose fields are read off; the two cases of a pop are those of `top`. -/
theorem invertCapturesWhatIsOverwritten : Obligations.InvertCapturesWhatIsOverwritten := by
  intro p e hinside
  refine ⟨_, invert_of_writesInside p hinside, fun h => ?_, fun u h => ⟨invertFlags p.flags u, ?_, ?_⟩, fun h => ?_,
    fun a v h => ?_, fun h => ?_, fun r v h => ?_, rfl, fun h => ?_, fun v h => ?_, fun h hempty => ?_,
    fun v cs h htop => ?_, fun h => ?_, invertHalt_of_ne⟩
  · simp [inverseOf, h]
  · simp [inverseOf, h]
  · simp +contextual [invertFlags]
  · simp [inverseOf, h]
  · simp [inverseOf, h]
  · simp [inverseOf, h]
  · simp [inverseOf, h]
  · simp [inverseOf, h]
  · simp [inverseOf, h]
  · simp [inverseOf, h, hempty]
  · simp [inverseOf, h, htop]
  · simp [inverseOf, h, invertHalt]

/-- Settles O33: an Effect that commits always has its inverse, which restores everything but the halted flag. -/
theorem undoRestoresExactlyUnlessHaltIsRedundant : Obligations.UndoRestoresExactlyUnlessHaltIsRedundant := by
  intro depth p q e hp hcs happly
  simp [invert_of_writesInside p (writesInside_of_apply happly), apply_inverseOf_eq_iff hp hcs happly]

end

/-! ## Undo and redo

In a state of the invariant the history's last pair is a link to the present state, so undo gives that pair's state
(`State.undo_of_link`); a step's own pair is the last one right after it, on a machine with a history. -/

namespace Sys2Proof.Machine

/-- The state after an undo that gave the Processor State `p` (R103). -/
def State.undone (s : State) (p : Proc) : State :=
  { s with proc := p, history := s.history.dropLast, report := none }

@[simp] theorem State.undone_proc (s : State) (p : Proc) : (s.undone p).proc = p := rfl
@[simp] theorem State.undone_history (s : State) (p : Proc) : (s.undone p).history = s.history.dropLast := rfl
@[simp] theorem State.undone_params (s : State) (p : Proc) : (s.undone p).params = s.params := rfl

theorem State.undo_of_history_nil {s : State} (h : s.history = []) : s.undo = .next s := by
  simp [undo, h]

/-- Undo of a last pair that leads to the present state gives the pair's state (R99, R103). -/
theorem State.undo_of_link {s : State} {p : Proc} {e : Effect} (hlast : s.history.getLast? = some (p, e))
    (hlink : Link s.params.stackDepth p e s.proc) : s.undo = .next (s.undone p) := by
  simp [undo, hlast, hlink.invert, hlink.apply_inverseOf, undone]

/-- A history that loses its last pair is within the depth it was within. -/
theorem HistoryWithin.of_append {depth : Option Nat} {history later : List (Proc × Effect)}
    (h : HistoryWithin depth (history ++ later)) : HistoryWithin depth history := by
  intro d hd
  have hlength := h d hd
  rw [List.length_append] at hlength
  omega

/-- In a state of the invariant the last pair is a link to the present state (R102). -/
theorem State.Inv.last_link {s : State} (h : s.Inv) {history : List (Proc × Effect)} {p : Proc} {e : Effect}
    (hhistory : s.history = history ++ [(p, e)]) :
    HistoryChain s.params.stackDepth history p ∧ Link s.params.stackDepth p e s.proc :=
  historyChain_append_singleton.1 (hhistory ▸ h.chain)

/-- Undo keeps the invariant: the pair's state meets it, and the pairs before it lead to that state. -/
theorem State.Inv.undone {s : State} (h : s.Inv) {history : List (Proc × Effect)} {p : Proc} {e : Effect}
    (hhistory : s.history = history ++ [(p, e)]) : (s.undone p).Inv := by
  obtain ⟨hchain, hwf, hstack, -⟩ := h.last_link hhistory
  have hrest : (s.undone p).history = history := by
    rw [undone_history, hhistory, List.dropLast_concat]
  exact {
    wf := hwf
    stack := hstack
    bounded := hrest ▸ (hhistory ▸ h.bounded).of_append
    chain := hrest ▸ hchain }

/-- After a step on a machine with a history, the last pair is the step's, and undo gives its state (R102, R103). -/
theorem State.Inv.undo_stepped {s : State} (h : s.Inv) (hdepth : s.params.histDepth ≠ some 0)
    (hrun : s.proc.halted = false) {e : Effect} {p : Proc}
    (hp : apply s.params.stackDepth s.proc e = .ok p) :
    (s.stepped p e).undo = .next ((s.stepped p e).undone s.proc) :=
  undo_of_link (getLast?_recordHistory hdepth s.history (s.proc, e)) (h.link hrun hp)

theorem State.hostCommit_of_apply {s : State} {e : Effect} {q : Proc}
    (h : apply s.params.stackDepth s.proc e = .ok q) : s.hostCommit e = .next { s with proc := q } := by
  simp [hostCommit, h]

end Sys2Proof.Machine

section
open Sys2Proof Sys2Proof.Machine

/-- Settles O35: the chain of the invariant makes the last pair a link, so undo walks it back, and what is left of the
chain leads to the state it gives. -/
theorem undoWalksBackTheHistory : Obligations.UndoWalksBackTheHistory := by
  intro s hinv
  refine ⟨State.undo_of_history_nil, fun h p e hhistory => ?_⟩
  have hlast : s.history.getLast? = some (p, e) := by rw [hhistory, List.getLast?_concat]
  refine ⟨s.undone p, State.undo_of_link hlast (hinv.last_link hhistory).2, rfl, ?_, hinv.undone hhistory⟩
  rw [State.undone_history, hhistory, List.dropLast_concat]

/-- Settles O34: the step's own pair is the last of the history, and it leads to the state after the step. -/
theorem undoReversesAnyStep : Obligations.UndoReversesAnyStep := by
  intro s t hinv hdepth hstep
  obtain ⟨hrun, -, -, e, p, -, -, -, hp, rfl⟩ := step_next_stepped hstep
  exact ⟨_, hinv.undo_stepped hdepth hrun hp, rfl, ⟨rfl, rfl, rfl⟩, rfl, rfl⟩

/-- Settles O36: the undo gives the Processor State before the step, and the step's Effect commits on that. -/
theorem redoAfterUndoGivesTheStepAgain : Obligations.RedoAfterUndoGivesTheStepAgain := by
  intro s t u hinv hdepth hstep hundo
  obtain ⟨hrun, -, -, e, p, -, -, -, hp, rfl⟩ := step_next_stepped hstep
  rw [hinv.undo_stepped hdepth hrun hp] at hundo
  obtain rfl := Host.Outcome.next.inj hundo
  exact ⟨e, _, getLast?_recordHistory hdepth s.history (s.proc, e), State.hostCommit_of_apply hp, rfl, rfl⟩

end

/-! ## Load, store, move

An Effect of a register only moves a value into it (`movesInto_of_effectOf`); a write at a byte address always commits
(`apply_write_byte`). The word of `ldr` is that of format RV, the word of `str` that of format CV, with the Address
written as a Value (R58). -/

namespace Sys2Proof

/-- Every Address is a Value read as an address. -/
theorem Value.exists_toAddress (a : Address) : ∃ v : Value, v.toAddress = a := by
  cases a with
  | ind r => exact ⟨.reg r, rfl⟩
  | abs k => exact ⟨.imm k, rfl⟩

namespace Machine

@[simp] theorem addressNumber_toAddress (v : Value) : addressNumber v.toAddress = valueNumber v := by
  cases v <;> rfl

/-- The word of an instruction of format CV as a number (R60). -/
theorem encodesAs_CV {i : Instr} {op : Nat} {a : RegId} {v : Value} (hop : op < 32)
    (h : i.fields = ((Fields.opcode op).withRa a).withValue v) :
    EncodesAs i op 0 0 a (valueNumber v) := by
  apply encodesAs_of_fields <;> rw [h] <;> cases v <;>
    simp [Fields.withValue, Fields.withReg, Fields.withImm, Fields.withRa, Fields.opcode,
      valueNumber, Nat.mod_eq_of_lt hop]

theorem encodesAs_ldr (dest : RegId) (addr : Address) :
    EncodesAs (Instr.ldr dest addr) 0 0 dest 0 (addressNumber addr) := by
  obtain ⟨v, rfl⟩ := Value.exists_toAddress addr
  rw [addressNumber_toAddress]
  exact encodesAs_RV (by decide) (fields_ldr dest v)

theorem encodesAs_str (addr : Address) (src : RegId) :
    EncodesAs (Instr.str addr src) 1 0 0 src (addressNumber addr) := by
  obtain ⟨v, rfl⟩ := Value.exists_toAddress addr
  rw [addressNumber_toAddress]
  exact encodesAs_CV (by decide) (fields_str v src)

/-- An instruction whose Effect is a register only completes, and moves the value into that register (R87, R113). -/
theorem movesInto_of_effectOf {i : Instr} {s : State} {dest : RegId} {v : Byte}
    (h : effectOf i s = .ok { reg := some (dest, v) }) : MovesInto i s dest v := by
  have hcommit := apply_reg_flags s.params.stackDepth s.proc (some (dest, v)) none
  refine ⟨h, _, exec_next.2 ⟨_, _, h, hcommit, rfl⟩, ?_, rfl, rfl, fun r hr => ?_, fun _ _ => rfl, rfl, rfl,
    rfl, rfl, rfl⟩
  · exact get_setReg_self s.proc.x dest v
  · have hne : dest ≠ r := fun heq => hr (List.mem_singleton.2 heq.symm)
    exact apply_reg_of_ne hcommit (by rintro _ ⟨⟩; exact hne)

/-- An Effect of a write at a byte address always commits: that byte replaced, the pc advanced (R44, R87, R88). -/
theorem apply_write_byte (depth : Option Nat) (p : Proc) (a v : Byte) :
    apply depth p { write := some (a.toNat, v) } =
      .ok { p with mem := p.mem.write a.toNat v, pc := p.pc + 1 } :=
  apply_ok.2 ⟨memWrite_byte p.mem a v, rfl, rfl, rfl, rfl, rfl⟩

end Machine

end Sys2Proof

section
open Sys2Proof Sys2Proof.Machine

/-- Settles O37: a read at a byte address succeeds, so the Effect is the loaded byte into `dest`. -/
theorem ldrLoadsTheByte : Obligations.LdrLoadsTheByte := by
  intro dest addr s
  have heffect := (effectOf_ldr dest addr s).trans (ldrEffect_eq dest addr s.proc)
  exact ⟨encodesAs_ldr dest addr, movesInto_of_effectOf heffect⟩

/-- Settles O38: a write at a byte address commits, and in a canonical memory every read after it is that byte or the
byte before. -/
theorem strStoresTheByte : Obligations.StrStoresTheByte := by
  intro addr src s hwf
  have heffect := effectOf_str addr src s
  have hcommit := apply_write_byte s.params.stackDepth s.proc (s.proc.resolve addr) (s.proc.reg src)
  have hread := apply_read_of_some hwf hcommit rfl
  refine ⟨encodesAs_str addr src, heffect, _, exec_next.2 ⟨_, _, heffect, hcommit, rfl⟩, ?_, fun a ha => ?_,
    fun _ _ => rfl, rfl, rfl, rfl, rfl, rfl, rfl, rfl⟩
  · exact (hread _).trans (if_pos rfl)
  · have hne : a ≠ (s.proc.resolve addr).toNat := fun heq => ha (List.mem_singleton.2 heq)
    exact (hread a).trans (if_neg hne)

/-- Settles O39: the Effect is the value into `dest`, in both operand forms. -/
theorem movCopiesTheValue : Obligations.MovCopiesTheValue := by
  intro dest src s
  exact ⟨encodesAs_RV (by decide) (fields_mov dest src), movesInto_of_effectOf (effectOf_mov dest src s)⟩

end

/-! ## Arithmetic and logic

An Effect of a register and all four flags completes (`completesWith_of_effectOf`), the three-operand ones by the
template of R122 (`completesWith_threeOperand`). What is left of each operation is its raw result as a byte and the
shared flag rule on it: the addition form of `add`, `sub` and `cmp` by `flagsFrom_rawAdd` and `flagsFrom_sub`, an
operation whose raw result is a byte by `flagsFrom_toNat`. -/

namespace Sys2Proof.Machine

/-! The commit of the register and the flags. -/

/-- An instruction whose Effect is a register and all four flags completes with them (R86 to R88, R122). -/
theorem completesWith_of_effectOf {i : Instr} {s : State} {dest : RegId} {v : Byte} {f : Flags}
    (h : effectOf i s = .ok { reg := some (dest, v), flags := some f.all }) : CompletesWith i s dest v f := by
  have hcommit := apply_reg_flags s.params.stackDepth s.proc (some (dest, v)) (some f.all)
  refine ⟨h, _, exec_next.2 ⟨_, _, h, hcommit, rfl⟩, ?_, applyFlags_all _ f, rfl, fun r hr => ?_, fun _ _ => rfl,
    rfl, rfl, rfl, rfl, rfl⟩
  · exact get_setReg_self s.proc.x dest v
  · have hne : dest ≠ r := fun heq => hr (List.mem_singleton.2 heq.symm)
    exact apply_reg_of_ne hcommit (by rintro _ ⟨⟩; exact hne)

/-- An instruction whose Effect is all four flags only completes, and changes nothing but them and the pc (R129). -/
theorem exec_of_flags {i : Instr} {s : State} {f : Flags} (h : effectOf i s = .ok { flags := some f.all }) :
    ∃ t, exec i s = .next t ∧ t.proc.flags = f ∧ Advances s t ∧ KeepsRegsExcept [] s t ∧ KeepsMemoryExcept [] s t ∧
      KeepsStack s t ∧ KeepsHalted s t ∧ KeepsProgram s t :=
  ⟨_, exec_next.2 ⟨_, _, h, apply_reg_flags _ _ none _, rfl⟩, applyFlags_all _ f, rfl, fun _ _ => rfl, fun _ _ => rfl,
    rfl, rfl, rfl, rfl, rfl⟩

/-- A three-operand instruction completes with the low byte of its raw result and the shared flags (R122). -/
theorem completesWith_threeOperand {i : Instr} {s : State} {raw : Byte → Byte → Nat} {dest a : RegId} {b v : Byte}
    {f : Flags} (h : effectOf i s = .ok (threeOperand raw dest a b s.proc))
    (hv : lowByte (raw (s.proc.reg a) b) = v) (hf : flagsFrom (s.proc.reg a) b (raw (s.proc.reg a) b) = f) :
    CompletesWith i s dest v f := by
  subst hv hf
  exact completesWith_of_effectOf h

/-! The shared flag rule. -/

theorem lowByte_eq_zero_iff {c : Nat} : lowByte c = 0 ↔ c % 256 = 0 := by
  rw [← BitVec.toNat_inj, toNat_lowByte]
  rfl

@[simp] theorem lowByte_toNat (r : Byte) : lowByte r.toNat = r := by
  apply BitVec.eq_of_toNat_eq
  rw [toNat_lowByte]
  exact Nat.mod_eq_of_lt r.isLt

/-- `V` of the shared rule: both inputs on one side of 0x80 and the result on the other (R120). -/
theorem flagsFrom_v_iff {a b : Byte} {c : Nat} :
    (flagsFrom a b c).v = true ↔
      (a.toNat < 128 ∧ b.toNat < 128 ∧ 128 ≤ c % 256) ∨ (128 ≤ a.toNat ∧ 128 ≤ b.toNat ∧ c % 256 < 128) := by
  simp only [flagsFrom_v, hb_eq_decide, toNat_lowByte, decide_eq_true_eq, decide_eq_decide, ne_eq]
  omega

/-- The shared rule, with `C` and `V` as worked out for the operation (R120). -/
theorem flagsFrom_eq {a b r : Byte} {c : Nat} {carry overflow : Bool} (hr : lowByte c = r)
    (hc : 256 ≤ c ↔ carry = true) (hv : (flagsFrom a b c).v = overflow) :
    flagsFrom a b c = { z := r = 0, c := carry, n := 128 ≤ r.toNat, v := overflow } := by
  subst hr hv
  have hcarry : (flagsFrom a b c).c = carry := by
    rw [Bool.eq_iff_iff, flagsFrom_c, decide_eq_true_eq, hc]
  rw [← hcarry]
  rfl

/-- A raw result that is a byte carries nothing out (R120). -/
theorem flagsFrom_toNat (a b r : Byte) :
    flagsFrom a b r.toNat =
      { z := r = 0, c := false, n := 128 ≤ r.toNat, v := hb a = hb b ∧ hb r ≠ hb a } := by
  have hlt : ¬ 256 ≤ r.toNat := Nat.not_le.2 r.isLt
  refine flagsFrom_eq (lowByte_toNat r) (by simpa using hlt) ?_
  rw [flagsFrom_v, lowByte_toNat]

/-! The addition form: `add`, `sub`, `cmp`. -/

@[simp] theorem lowByte_rawAdd (x y : Byte) : lowByte (rawAdd x y) = x + y := by
  apply BitVec.eq_of_toNat_eq
  rw [toNat_lowByte, BitVec.toNat_add]
  rfl

theorem lowByte_rawAdd_neg2c (x y : Byte) : lowByte (rawAdd x (neg2c y)) = x - y := by
  rw [lowByte_rawAdd, neg2c_eq_neg, BitVec.sub_eq_add_neg]

/-- A difference of bytes is 0 exactly when they are equal. -/
theorem byte_sub_eq_zero_iff {x y : Byte} : x - y = 0 ↔ x = y := by bv_omega

/-- `C` of an addition is the unsigned carry out, `V` signed overflow (R120, R132). -/
theorem flagsFrom_rawAdd (x y : Byte) :
    flagsFrom x y (rawAdd x y) =
      { z := x + y = 0
        c := 256 ≤ x.toNat + y.toNat
        n := 128 ≤ (x + y).toNat
        v := ¬ (-128 ≤ x.toInt + y.toInt ∧ x.toInt + y.toInt ≤ 127) } := by
  refine flagsFrom_eq (lowByte_rawAdd x y) (by rw [rawAdd, decide_eq_true_eq]) ?_
  rw [Bool.eq_iff_iff, flagsFrom_v_iff, decide_eq_true_eq, rawAdd, BitVec.toInt_eq_toNat_cond,
    BitVec.toInt_eq_toNat_cond]
  have hx := x.isLt
  have hy := y.isLt
  omega

/-- The flags of `x - y` are those of adding the negation of `y`, corner cases included: the negation of 0 carries
nothing out, and 0x80 is its own (R125). -/
theorem flagsFrom_sub (x y : Byte) : flagsFrom x (neg2c y) (rawAdd x (neg2c y)) = differenceFlags x y := by
  have hx := x.isLt
  have hy := y.isLt
  have hzero : y ≠ 0 ↔ y.toNat ≠ 0 := by rw [ne_eq, ← BitVec.toNat_inj]; rfl
  have hmin : y = 0x80 ↔ y.toNat = 128 := by rw [← BitVec.toNat_inj]; rfl
  rw [flagsFrom_eq (lowByte_rawAdd_neg2c x y) (carry := y ≠ 0 ∧ y.toNat ≤ x.toNat)
    (overflow := (differenceFlags x y).v)]
  · simp only [differenceFlags, byte_sub_eq_zero_iff]
  · rw [decide_eq_true_eq, hzero, rawAdd, toNat_neg2c]
    omega
  · rw [Bool.eq_iff_iff, flagsFrom_v_iff, rawAdd, toNat_neg2c, differenceFlags, BitVec.toInt_eq_toNat_cond,
      BitVec.toInt_eq_toNat_cond]
    by_cases h : y = 0x80
    · have hval := hmin.1 h
      rw [if_pos h, decide_eq_true_eq]
      omega
    · have hval : y.toNat ≠ 128 := fun hval => h (hmin.2 hval)
      rw [if_neg h, decide_eq_true_eq]
      omega

/-- `cmp` has the flags of `sub` and nothing else (R129). -/
theorem cmpEffect_eq (a : RegId) (b : Value) (p : Proc) :
    cmpEffect a b p = { flags := some (differenceFlags (p.reg a) (p.value b)).all } := by
  rw [← flagsFrom_sub]
  rfl

/-! The order that the flags of a difference carry (R150). -/

@[simp] theorem differenceFlags_z (x y : Byte) : (differenceFlags x y).z = decide (x = y) := rfl

/-- `C` is "no borrow", but for a zero second operand (R125). -/
theorem differenceFlags_c_of_ne_zero {x y : Byte} (hy : y ≠ 0) :
    (differenceFlags x y).c = decide (y.toNat ≤ x.toNat) := by
  simp only [differenceFlags, hy, ne_eq, not_false_eq_true, true_and]

/-- `N = V` is the signed order, but for a second operand 0x80 (R125, R150). -/
theorem differenceFlags_n_beq_v {x y : Byte} (hy : y ≠ 0x80) :
    ((differenceFlags x y).n == (differenceFlags x y).v) = decide (y.toInt ≤ x.toInt) := by
  have hx := x.isLt
  have hlt := y.isLt
  rw [Bool.eq_iff_iff, beq_iff_eq, differenceFlags, if_neg hy, decide_eq_decide, decide_eq_true_eq, BitVec.toNat_sub,
    BitVec.toInt_eq_toNat_cond, BitVec.toInt_eq_toNat_cond]
  omega

/-- The unsigned conditions on the flags of a difference (R150). -/
theorem condHolds_differenceFlags_unsigned {x y : Byte} (hy : y ≠ 0) :
    (condHolds .hs (differenceFlags x y) = true ↔ y.toNat ≤ x.toNat) ∧
    (condHolds .hi (differenceFlags x y) = true ↔ y.toNat < x.toNat) ∧
    (condHolds .lo (differenceFlags x y) = true ↔ x.toNat < y.toNat) ∧
    (condHolds .ls (differenceFlags x y) = true ↔ x.toNat ≤ y.toNat) := by
  have heq : x = y ↔ x.toNat = y.toNat := BitVec.toNat_inj.symm
  simp only [condHolds, differenceFlags_z, differenceFlags_c_of_ne_zero hy, heq, Bool.and_eq_true, Bool.or_eq_true,
    Bool.not_eq_true', decide_eq_true_eq, decide_eq_false_iff_not]
  refine ⟨trivial, ?_, ?_, ?_⟩ <;> omega

/-- With a zero second operand `C` is clear, whatever the first (R125). -/
theorem condHolds_differenceFlags_zero (x : Byte) :
    ¬ condHolds .hs (differenceFlags x 0) = true ∧ ¬ condHolds .hi (differenceFlags x 0) = true ∧
    condHolds .lo (differenceFlags x 0) = true :=
  ⟨Bool.false_ne_true, Bool.false_ne_true, rfl⟩

/-- The signed conditions on the flags of a difference (R150). -/
theorem condHolds_differenceFlags_signed {x y : Byte} (hy : y ≠ 0x80) :
    (condHolds .ge (differenceFlags x y) = true ↔ y.toInt ≤ x.toInt) ∧
    (condHolds .gt (differenceFlags x y) = true ↔ y.toInt < x.toInt) ∧
    (condHolds .lt (differenceFlags x y) = true ↔ x.toInt < y.toInt) ∧
    (condHolds .le (differenceFlags x y) = true ↔ x.toInt ≤ y.toInt) := by
  have heq : x = y ↔ x.toInt = y.toInt := BitVec.toInt_inj.symm
  simp only [condHolds, bne, differenceFlags_z, differenceFlags_n_beq_v hy, heq, Bool.and_eq_true, Bool.or_eq_true,
    Bool.not_eq_true', decide_eq_true_eq, decide_eq_false_iff_not]
  refine ⟨trivial, ?_, ?_, ?_⟩ <;> omega

/-! The bitwise operations: the raw result is a byte, and its high bit is that of the operands' high bits. -/

theorem rawAnd_eq (x y : Byte) : rawAnd x y = (x &&& y).toNat := (BitVec.toNat_and x y).symm
theorem rawOr_eq (x y : Byte) : rawOr x y = (x ||| y).toNat := (BitVec.toNat_or x y).symm
theorem rawXor_eq (x y : Byte) : rawXor x y = (x ^^^ y).toNat := (BitVec.toNat_xor x y).symm

@[simp] theorem hb_and (x y : Byte) : hb (x &&& y) = (hb x && hb y) := BitVec.getLsbD_and
@[simp] theorem hb_or (x y : Byte) : hb (x ||| y) = (hb x || hb y) := BitVec.getLsbD_or
@[simp] theorem hb_xor (x y : Byte) : hb (x ^^^ y) = (hb x ^^ hb y) := BitVec.getLsbD_xor

/-- Two equal high bits stay as they are under `and` and `or`, so `V` is clear (R126). -/
theorem flagsFrom_rawAnd (x y : Byte) :
    flagsFrom x y (rawAnd x y) = { z := x &&& y = 0, c := false, n := 128 ≤ (x &&& y).toNat, v := false } := by
  rw [rawAnd_eq, flagsFrom_toNat, hb_and]
  cases hb x <;> cases hb y <;> rfl

/-- As for `and` (R127). -/
theorem flagsFrom_rawOr (x y : Byte) :
    flagsFrom x y (rawOr x y) = { z := x ||| y = 0, c := false, n := 128 ≤ (x ||| y).toNat, v := false } := by
  rw [rawOr_eq, flagsFrom_toNat, hb_or]
  cases hb x <;> cases hb y <;> rfl

/-- Of two equal high bits `xor` makes a clear one, which differs from them when they are set (R128). -/
theorem flagsFrom_rawXor (x y : Byte) :
    flagsFrom x y (rawXor x y) =
      { z := x ^^^ y = 0, c := false, n := 128 ≤ (x ^^^ y).toNat, v := 128 ≤ x.toNat ∧ 128 ≤ y.toNat } := by
  rw [rawXor_eq, flagsFrom_toNat, hb_xor, Bool.decide_and (128 ≤ x.toNat), ← hb_eq_decide x,
    ← hb_eq_decide y]
  cases hb x <;> cases hb y <;> rfl

/-! The unary operations. -/

/-- The bitwise complement of a byte as a difference (R131). -/
theorem not_eq_sub (x : Byte) : ~~~x = 255 - x := by bv_omega

/-- The flags of a complement, by its operand (R123, R131). -/
theorem unaryFlags_complement (x : Byte) :
    unaryFlags (255 - x) = { z := x = 255, c := false, n := x.toNat < 128, v := false } := by
  have hz : 255 - x = 0 ↔ x = 255 := by rw [byte_sub_eq_zero_iff, eq_comm]
  have hn : 128 ≤ (255 - x).toNat ↔ x.toNat < 128 := by bv_omega
  simp only [unaryFlags, hz, hn]

end Sys2Proof.Machine

section
open Sys2Proof Sys2Proof.Machine

/-- Settles O40, by the lemma of each flag. -/
theorem sharedFlagRule : Obligations.SharedFlagRule := by
  intro a b c
  refine ⟨?_, ?_, ?_, flagsFrom_v_iff⟩
  · rw [flagsFrom_c, decide_eq_true_eq]
  · rw [flagsFrom_z, decide_eq_true_eq, lowByte_eq_zero_iff]
  · rw [flagsFrom_n, decide_eq_true_eq, toNat_lowByte]

/-- Settles O41: the two fixed points are closed, and of a byte that is not 0 the difference from 256 is a byte. -/
theorem negationRule : Obligations.NegationRule := by
  refine ⟨rfl, rfl, fun x => ⟨fun hx => ?_, neg2c_eq_neg x⟩⟩
  have hpos : x.toNat ≠ 0 := fun h => hx (BitVec.eq_of_toNat_eq h)
  rw [toNat_neg2c]
  omega

/-- Settles O42: the raw sum's low byte is the sum of bytes, and the shared rule on it is carry and overflow. -/
theorem addSumsWithCarryAndOverflow : Obligations.AddSumsWithCarryAndOverflow := by
  intro dest a b s
  exact ⟨encodesAs_RRV (by decide) (fields_add dest a b),
    completesWith_threeOperand (effectOf_add dest a b s) (lowByte_rawAdd _ _) (flagsFrom_rawAdd _ _)⟩

/-- Settles O43: adding the negation subtracts, with the flags of `flagsFrom_sub`. -/
theorem subSubtractsWithItsCornerCases : Obligations.SubSubtractsWithItsCornerCases := by
  intro dest a b s
  exact ⟨encodesAs_RRV (by decide) (fields_sub dest a b),
    completesWith_threeOperand (effectOf_sub dest a b s) (lowByte_rawAdd_neg2c _ _) (flagsFrom_sub _ _)⟩

/-- Settles O44: the Effect is the flags of `sub` alone, and an Effect of flags always commits. -/
theorem cmpSetsTheFlagsOfSub : Obligations.CmpSetsTheFlagsOfSub := by
  intro a b s
  have heffect : effectOf (Instr.cmp a b) s = .ok _ := (effectOf_cmp a b s).trans (congrArg _ (cmpEffect_eq a b s.proc))
  exact ⟨encodesAs_CV (by decide) (fields_cmp a b), heffect, exec_of_flags heffect⟩

/-- Settles O45: the flags after `cmp` are those of the difference, of which `Z` is equality, `C` the unsigned order
and `N = V` the signed order. -/
theorem cmpThenConditionsOrderTheOperands : Obligations.CmpThenConditionsOrderTheOperands := by
  intro a b s
  obtain ⟨-, -, t, hexec, hflags, -⟩ := cmpSetsTheFlagsOfSub a b s
  refine ⟨t, hexec, ?_⟩
  rw [hflags]
  refine ⟨by simp [condHolds], by simp [condHolds], condHolds_differenceFlags_unsigned, fun hzero => ?_,
    condHolds_differenceFlags_signed⟩
  rw [hzero]
  exact condHolds_differenceFlags_zero _

/-- Settles O46: both raw results are the bytes of the bitwise operation. -/
theorem andOrClearCarryAndOverflow : Obligations.AndOrClearCarryAndOverflow := by
  intro dest a b s x y
  have hand : lowByte (rawAnd x y) = x &&& y := by rw [rawAnd_eq, lowByte_toNat]
  have hor : lowByte (rawOr x y) = x ||| y := by rw [rawOr_eq, lowByte_toNat]
  exact ⟨encodesAs_RRV (by decide) (fields_and dest a b),
    completesWith_threeOperand (effectOf_and dest a b s) hand (flagsFrom_rawAnd x y),
    encodesAs_RRV (by decide) (fields_or dest a b),
    completesWith_threeOperand (effectOf_or dest a b s) hor (flagsFrom_rawOr x y)⟩

/-- Settles O47: the raw result is the byte of the bitwise operation. -/
theorem xorOverflowsOnTwoHighBits : Obligations.XorOverflowsOnTwoHighBits := by
  intro dest a b s x y
  have hxor : lowByte (rawXor x y) = x ^^^ y := by rw [rawXor_eq, lowByte_toNat]
  exact ⟨encodesAs_RRV (by decide) (fields_xor dest a b),
    completesWith_threeOperand (effectOf_xor dest a b s) hxor (flagsFrom_rawXor x y)⟩

/-- Settles O48: `neg2c` negates, and the unary flags are those of the result. -/
theorem negNegates : Obligations.NegNegates := by
  intro dest src s
  rw [← neg2c_eq_neg]
  exact ⟨encodesAs_RV (by decide) (fields_neg dest src), completesWith_of_effectOf (effectOf_neg dest src s)⟩

/-- Settles O49: the complement is the difference from 255, with its flags read off the operand. -/
theorem notComplements : Obligations.NotComplements := by
  intro dest src s
  refine ⟨encodesAs_RV (by decide) (fields_not dest src), ?_⟩
  rw [← unaryFlags_complement, ← not_eq_sub]
  exact completesWith_of_effectOf (effectOf_not dest src s)

end

/-! ## Shifts and rotates

Each raw result is the byte of Lean's shift or rotation of bit vectors, so `C` is clear (R146), and the shared flag
rule on it is `shiftFlags` (`flagsFrom_toNat_eq_shiftFlags`), with the count as it was before any reduction. -/

namespace Sys2Proof.Machine

/-! The shared flag rule on a raw result that is a byte. -/

/-- The flags of a shift or rotate, by the ranges of the operand, the count and the result (R146). -/
theorem flagsFrom_toNat_eq_shiftFlags (x n r : Byte) : flagsFrom x n r.toNat = shiftFlags x n r := by
  have hr : r.toNat % 256 = r.toNat := Nat.mod_eq_of_lt r.isLt
  refine flagsFrom_eq (lowByte_toNat r) (by simpa using r.isLt) ?_
  rw [Bool.eq_iff_iff, flagsFrom_v_iff, decide_eq_true_eq, hr]
  omega

/-- A three-operand instruction whose raw result is a byte completes with that byte and the flags of R146. -/
theorem completesWith_shift {i : Instr} {s : State} {raw : Byte → Byte → Nat} {dest a : RegId} {b r : Byte}
    (h : effectOf i s = .ok (threeOperand raw dest a b s.proc)) (hraw : raw (s.proc.reg a) b = r.toNat) :
    CompletesWith i s dest r (shiftFlags (s.proc.reg a) b r) :=
  completesWith_threeOperand h (by rw [hraw, lowByte_toNat]) (by rw [hraw, flagsFrom_toNat_eq_shiftFlags])

/-! The shifts: the count is not reduced, and from 8 on nothing of the operand but its sign is left. -/

theorem and_255_eq_mod (c : Nat) : c &&& 255 = c % 256 := Nat.and_two_pow_sub_one_eq_mod c 8

theorem rawLsl_eq (x n : Byte) : rawLsl x n = (x <<< n.toNat).toNat := by
  rw [rawLsl, and_255_eq_mod, BitVec.toNat_shiftLeft]

theorem rawLsr_eq (x n : Byte) : rawLsr x n = (x >>> n.toNat).toNat := by
  rw [rawLsr, ← BitVec.toNat_ushiftRight, and_255_eq_mod]
  exact Nat.mod_eq_of_lt (x >>> n.toNat).isLt

theorem sext8_eq_toInt (x : Byte) : sext8 x = x.toInt := by
  rw [sext8, BitVec.toInt_eq_toNat_cond]
  split <;> omega

/-- The floor of the signed quotient by `2^n` is the shift that replicates bit 7 (R143). -/
theorem rawAsr_eq (x n : Byte) : rawAsr x n = (x.sshiftRight n.toNat).toNat := by
  rw [rawAsr, sext8_eq_toInt, BitVec.sshiftRight, BitVec.toNat_ofInt, Int.shiftRight_eq_div_pow,
    Int.natCast_pow 2 n.toNat]
  rfl

theorem hb_eq_msb (x : Byte) : hb x = x.msb := (hb_eq_decide x).trans (BitVec.msb_eq_decide x).symm

@[simp] theorem hb_sshiftRight (x : Byte) (k : Nat) : hb (x.sshiftRight k) = hb x := by
  simp only [hb_eq_msb, BitVec.msb_sshiftRight]

/-- The result keeps the operand's high bit, so `N` is that bit and `V` is clear (R143, R146). -/
theorem flagsFrom_rawAsr (x n : Byte) :
    flagsFrom x n (rawAsr x n) =
      { z := x.sshiftRight n.toNat = 0, c := false, n := 128 ≤ x.toNat, v := false } := by
  rw [rawAsr_eq, flagsFrom_toNat, ← hb_eq_decide, ← hb_eq_decide, hb_sshiftRight]
  simp

/-! The rotates: the count is reduced to its remainder by 8. -/

theorem rotateLeft_mod_eq (x : Byte) (k : Nat) : rotateLeft x (k % 8) = (x.rotateLeft k).toNat := by
  have hlow : x.toNat >>> (8 - k % 8) < 256 := Nat.lt_of_le_of_lt (Nat.shiftRight_le _ _) x.isLt
  rw [rotateLeft, Nat.and_or_distrib_right, and_255_eq_mod, and_255_eq_mod, Nat.mod_eq_of_lt hlow,
    BitVec.toNat_rotateLeft]

/-- Rotating left by `k` moves bit `j` to bit `(j + k) mod 8` (R144). -/
theorem getLsbD_rotateLeft_add (x : Byte) {j : Nat} (hj : j < 8) (k : Nat) :
    (x.rotateLeft k).getLsbD ((j + k) % 8) = x.getLsbD j := by
  rw [BitVec.getLsbD_rotateLeft]
  by_cases hwrap : j + k % 8 < 8
  · have hto : (j + k) % 8 = j + k % 8 := by omega
    have hge : ¬ j + k % 8 < k % 8 := by omega
    rw [hto, decide_eq_false hge, cond_false, decide_eq_true hwrap, Bool.true_and, Nat.add_sub_cancel]
  · have hto : (j + k) % 8 = j + k % 8 - 8 := by omega
    have hlt : j + k % 8 - 8 < k % 8 := by omega
    have hfrom : 8 - k % 8 + (j + k % 8 - 8) = j := by omega
    rw [hto, decide_eq_true hlt, cond_true, hfrom]

end Sys2Proof.Machine

section
open Sys2Proof Sys2Proof.Machine

/-- Settles O50: the raw result is the byte of the left shift. -/
theorem lslShiftsLeft : Obligations.LslShiftsLeft := by
  intro dest a b s x n
  exact ⟨encodesAs_RRV (by decide) (fields_lsl dest a b),
    completesWith_shift (effectOf_lsl dest a b s) (rawLsl_eq x n)⟩

/-- Settles O51: the raw result is the byte of the unsigned right shift. -/
theorem lsrShiftsRight : Obligations.LsrShiftsRight := by
  intro dest a b s x n
  exact ⟨encodesAs_RRV (by decide) (fields_lsr dest a b),
    completesWith_shift (effectOf_lsr dest a b s) (rawLsr_eq x n)⟩

/-- Settles O52: the raw result is the byte of the signed right shift, which keeps the high bit. -/
theorem asrKeepsTheSign : Obligations.AsrKeepsTheSign := by
  intro dest a b s x n
  have hresult : lowByte (rawAsr x n) = x.sshiftRight n.toNat := by rw [rawAsr_eq, lowByte_toNat]
  exact ⟨encodesAs_RRV (by decide) (fields_asr dest a b),
    completesWith_threeOperand (effectOf_asr dest a b s) hresult (flagsFrom_rawAsr x n)⟩

/-- Settles O53: the result is the left rotation by the count. -/
theorem rolMovesEachBitUp : Obligations.RolMovesEachBitUp := by
  intro dest a b s x n
  exact ⟨encodesAs_RRV (by decide) (fields_rol dest a b), x.rotateLeft n.toNat,
    fun _ hj => getLsbD_rotateLeft_add x hj n.toNat,
    completesWith_shift (effectOf_rol dest a b s) (rotateLeft_mod_eq x n.toNat)⟩

/-- Settles O54: the result is the left rotation by what the count lacks to a multiple of 8, which moves bit
`(j + n) mod 8` to bit `j`. -/
theorem rorMovesEachBitDown : Obligations.RorMovesEachBitDown := by
  intro dest a b s x n
  refine ⟨encodesAs_RRV (by decide) (fields_ror dest a b), x.rotateLeft (8 - n.toNat % 8), fun j hj => ?_,
    completesWith_shift (effectOf_ror dest a b s) (rotateLeft_mod_eq x (8 - n.toNat % 8))⟩
  have hback : ((j + n.toNat) % 8 + (8 - n.toNat % 8)) % 8 = j := by omega
  rw [← getLsbD_rotateLeft_add x (Nat.mod_lt _ (by decide)) (8 - n.toNat % 8), hback]

end

/-! ## Control transfer

`call` and `ret` hold a jump and a stack operation at most; such an Effect commits whenever its stack operation does,
and moves the pc and the stack only (`exec_of_jump_stack`). The conditions come in pairs of which one is the Boolean
negation of the other. -/

namespace Sys2Proof.Machine

/-- The word of an instruction with no operand as a number (format Z of R60). -/
theorem encodesAs_opcode {i : Instr} {op : Nat} (hop : op < 32) (h : i.fields = Fields.opcode op) :
    EncodesAs i op 0 0 0 0 := by
  apply encodesAs_of_fields <;> rw [h] <;> simp [Fields.opcode, Nat.mod_eq_of_lt hop]

/-- The word of `call` as a number (format L of R60). -/
theorem encodesAs_call (l : Label) : EncodesAs (.call l) 4 0 0 0 l.toNat := by
  apply encodesAs_of_fields <;> rw [fields_call] <;> simp [Fields.withLabel, Fields.opcode]

/-! Completing a jump and a stack operation. -/

/-- An instruction whose Effect is a jump and a stack operation at most completes where the stack operation does
(R88, R89). -/
theorem exec_of_jump_stack {i : Instr} {s : State} {j : Option Pc} {op : Option StackOp} {cs : List Pc}
    (h : effectOf i s = .ok { jump := j, stack := op })
    (hcs : applyStack s.params.stackDepth s.proc.cs op = .ok cs) :
    exec i s = .next (s.stepped { s.proc with pc := j.getD (s.proc.pc + 1), cs := cs } { jump := j, stack := op }) := by
  have hcommit : apply s.params.stackDepth s.proc { jump := j, stack := op } =
      .ok { s.proc with pc := j.getD (s.proc.pc + 1), cs := cs } :=
    apply_ok.2 ⟨rfl, hcs, rfl, rfl, rfl, rfl⟩
  exact exec_next.2 ⟨_, _, h, hcommit, rfl⟩

theorem keepsData_stepped_pc_cs (s : State) (pc : Pc) (cs : List Pc) (e : Effect) :
    KeepsData s (s.stepped { s.proc with pc := pc, cs := cs } e) :=
  ⟨fun _ _ => rfl, fun _ _ => rfl, rfl, rfl, rfl, rfl⟩

theorem effectOf_call_of_lookup {l : Label} {s : State} {target : Pc} (hl : lookupLabel s.labels l = .ok target) :
    effectOf (.call l) s = .ok { jump := some target, stack := some (.push (s.proc.pc + 1)) } :=
  callEffect_ok.2 ⟨target, hl, rfl⟩

/-- `call` of a present label on a stack with room (R152). -/
theorem exec_call {l : Label} {s : State} {target : Pc} (hl : lookupLabel s.labels l = .ok target)
    (hroom : ∀ d, s.params.stackDepth = some d → s.proc.cs.length < d) :
    exec (.call l) s = .next (s.stepped { s.proc with pc := target, cs := s.proc.cs ++ [s.proc.pc + 1] }
      { jump := some target, stack := some (.push (s.proc.pc + 1)) }) :=
  exec_of_jump_stack (effectOf_call_of_lookup hl) (push_ok.2 ⟨hroom, rfl⟩)

theorem retEffect_of_append {p : Proc} {below : List Pc} {target : Pc} (h : p.cs = below ++ [target]) :
    retEffect p = { jump := some target, stack := some .pop } := by
  simp [retEffect, h]

theorem retEffect_of_nil {p : Proc} (h : p.cs = []) : retEffect p = {} := by
  simp [retEffect, h]

theorem effectOf_ret_of_append {s : State} {below : List Pc} {target : Pc} (h : s.proc.cs = below ++ [target]) :
    effectOf .ret s = .ok { jump := some target, stack := some .pop } :=
  congrArg Except.ok (retEffect_of_append h)

/-- `ret` on a non-empty stack (R153). -/
theorem exec_ret {s : State} {below : List Pc} {target : Pc} (h : s.proc.cs = below ++ [target]) :
    exec .ret s = .next (s.stepped { s.proc with pc := target, cs := below }
      { jump := some target, stack := some .pop }) := by
  have hpop : applyStack s.params.stackDepth s.proc.cs (some .pop) = .ok below := by
    rw [h, applyStack_pop, pop_append]
  exact exec_of_jump_stack (effectOf_ret_of_append h) hpop

/-! The conditions (R150). -/

theorem condHolds_gt {f : Flags} : condHolds .gt f = true ↔ f.z = false ∧ f.n = f.v := by
  simp [condHolds]

theorem condHolds_le {f : Flags} : condHolds .le f = true ↔ f.z = true ∨ f.n ≠ f.v := by
  simp [condHolds]

theorem condHolds_hi {f : Flags} : condHolds .hi f = true ↔ f.c = true ∧ f.z = false := by
  simp [condHolds]

theorem condHolds_ls {f : Flags} : condHolds .ls f = true ↔ f.c = false ∨ f.z = true := by
  simp [condHolds]

/-- Of two conditions whose formulas are each other's negation exactly one holds. -/
theorem condHolds_iff_not {cc cc' : Cond} {f : Flags} (h : condHolds cc f = !condHolds cc' f) :
    condHolds cc f = true ↔ ¬ condHolds cc' f = true := by
  rw [h, Bool.not_eq_true', Bool.not_eq_true]

theorem condHolds_gt_eq_not_le (f : Flags) : condHolds .gt f = !condHolds .le f := by
  simp [condHolds, bne]

theorem condHolds_hi_eq_not_ls (f : Flags) : condHolds .hi f = !condHolds .ls f := by
  simp [condHolds]

end Sys2Proof.Machine

section
open Sys2Proof Sys2Proof.Machine

/-- Settles O57: the Effect of a found label commits where the push has room, and the two faults are those of an
absent label and of a full stack. -/
theorem callPushesTheReturnPoint : Obligations.CallPushesTheReturnPoint := by
  intro l s
  refine ⟨encodesAs_call l, fun target hl hroom => ?_, fun habsent => ?_, fun hl d hd hfull => ?_⟩
  · exact ⟨effectOf_call_of_lookup hl, _, exec_call hl hroom, rfl, rfl, keepsData_stepped_pc_cs _ _ _ _, rfl⟩
  · exact exec_unknownLabel.2 ⟨.inl rfl, habsent⟩
  · exact exec_stackOverflow.2 ⟨⟨l, rfl, hl⟩, d, hd, hfull⟩

/-- Settles O58: a pop always commits, and on an empty stack the Effect is empty. -/
theorem retPopsTheReturnPoint : Obligations.RetPopsTheReturnPoint := by
  refine ⟨encodesAs_opcode (by decide) fields_ret, fun s => ⟨fun below target hcs => ?_, fun hempty => ?_⟩⟩
  · exact ⟨effectOf_ret_of_append hcs, _, exec_ret hcs, rfl, rfl, keepsData_stepped_pc_cs _ _ _ _, rfl⟩
  · have heffect : effectOf .ret s = .ok {} := congrArg Except.ok (retEffect_of_nil hempty)
    obtain ⟨t, hexec, hpc, hdata, hstack, hhalted⟩ := exec_of_jump heffect
    exact ⟨heffect, t, hexec, hpc, hstack.trans hempty, hdata, hhalted⟩

/-- Settles O59: the stack that `call` leaves is the one before it with `pc + 1` on top, which `ret` takes back. -/
theorem retAfterCallReturnsBehindIt : Obligations.RetAfterCallReturnsBehindIt := by
  intro l s target hl hroom
  exact ⟨_, _, exec_call hl hroom, exec_ret rfl, rfl⟩

/-- Settles O55: the formulas are the conditions' own Boolean formulas; `gt`/`le` and `hi`/`ls` are complements by
De Morgan, the other pairs as their formulas stand. -/
theorem conditionFormulas : Obligations.ConditionFormulas := by
  intro f holds
  have hnot (b : Bool) : (!b) = true ↔ b = false := Bool.not_eq_true' b |>.to_iff
  have hnotnot (b : Bool) : b = !!b := (Bool.not_not b).symm
  refine ⟨rfl, Iff.rfl, hnot f.z, condHolds_gt, bne_iff_ne, beq_iff_eq, condHolds_le, condHolds_hi, hnot f.c, Iff.rfl,
    condHolds_ls, hnot f.n, Iff.rfl, Iff.rfl, hnot f.v, ?_, ?_, ?_, ?_, ?_, ?_, ?_⟩
  · exact condHolds_iff_not (cc := .eq) (cc' := .ne) (hnotnot f.z)
  · exact condHolds_iff_not (condHolds_gt_eq_not_le f)
  · exact condHolds_iff_not (cc := .lt) (cc' := .ge) rfl
  · exact condHolds_iff_not (condHolds_hi_eq_not_ls f)
  · exact condHolds_iff_not (cc := .lo) (cc' := .hs) rfl
  · exact condHolds_iff_not (cc := .pl) (cc' := .mi) rfl
  · exact condHolds_iff_not (cc := .vs) (cc' := .vc) (hnotnot f.v)

end

/-! ## `hlt` and `nop`

`nop` is an Effect of no jump (`exec_of_jump`); the Effect of `hlt` is its halt field, which commits in every state. -/

namespace Sys2Proof.Machine

/-- An instruction whose Effect is the halt field alone completes, halted; the pc advances by default, and nothing
else moves (R88, R90). -/
theorem exec_of_halt {i : Instr} {s : State} (h : effectOf i s = .ok { halt := some true }) :
    ∃ t, exec i s = .next t ∧ t.proc.halted = true ∧ Advances s t ∧ KeepsData s t ∧ KeepsStack s t :=
  ⟨_, exec_next.2 ⟨_, _, h, rfl, rfl⟩, rfl, rfl, ⟨fun _ _ => rfl, fun _ _ => rfl, rfl, rfl, rfl, rfl⟩, rfl⟩

end Sys2Proof.Machine

section
open Sys2Proof Sys2Proof.Machine

/-- Settles O60: both words are an opcode number alone; the Effect of `hlt` is its halt field, that of `nop` is
empty, so its jump is the default advance. -/
theorem hltHaltsNopOnlyAdvances : Obligations.HltHaltsNopOnlyAdvances := by
  refine ⟨encodesAs_opcode (by decide) fields_hlt, encodesAs_opcode (by decide) fields_nop, fun s => ?_⟩
  have hhlt : effectOf .hlt s = .ok { halt := some true } := effectOf_hlt s
  have hnop : effectOf .nop s = .ok {} := effectOf_nop s
  exact ⟨hhlt, exec_of_halt hhlt, hnop, exec_of_jump hnop⟩

end

/-! ## A failed or stopped request

The step looks at neither history nor report (R28), so after the report is written it answers the same fault. -/

namespace Sys2Proof.Machine

/-- What the request of a fault leaves: the state itself, with the fault as its report (R183, R186, R187). -/
theorem State.request_of_fault {s : State} {f : Fault} (h : step s = .fault f) :
    s.request = { s with report := some f } := by
  simp only [State.request, h]

end Sys2Proof.Machine

section
open Sys2Proof Sys2Proof.Machine

/-- Settles O12: the request writes the report alone, which the next step does not see, so the second request writes
the same report over it. -/
theorem failedRequestChangesNothingAndRepeats : Obligations.FailedRequestChangesNothingAndRepeats := by
  intro s f h
  have hrequest : s.request = { s with report := some f } := State.request_of_fault h
  have hagain : step s.request = .fault f := hrequest ▸ step_fault_set_report (some f) h
  have hrepeat : s.request.request = { s.request with report := some f } := State.request_of_fault hagain
  exact ⟨hrequest, hagain, by rw [hrepeat, hrequest]⟩

end

/-! ## Well-formed Programs, the placed word and reset

A well-formed Program leaves none of a step's failures: its words decode and the labels they name are in the table, so
that with the unbounded call stack only the two stops remain (R204). `withFetchWord` puts its word where the step
fetches and a missing label into the table; the reset values are those of the table of R27. -/

namespace Sys2Proof

theorem wordSupported_iff {w : Word} : wordSupported w = true ↔ ∃ i, decode w = .ok i := by
  unfold wordSupported
  cases decode w <;> simp

theorem labelPresent_iff {labels : List (Label × Pc)} {l : Label} :
    labelPresent labels l = true ↔ ∃ e ∈ labels, e.1 = l := by
  simp [labelPresent]

/-- The table has the label that a resolved word names (R204 (b)). -/
theorem exists_label_of_wordResolved {labels : List (Label × Pc)} {w : Word} {i : Instr} {l : Label}
    (h : wordResolved labels w = true) (hi : decode w = .ok i) (hl : i.label? = some l) :
    ∃ e ∈ labels, e.1 = l := by
  simp only [wordResolved, hi, hl, Option.all_some] at h
  exact labelPresent_iff.1 h

/-- What a well-formed Program says of each of its words (R204). -/
theorem supported_and_resolved_of_programWf {code : List Word} {labels : List (Label × Pc)} {w : Word}
    (h : programWf code labels = true) (hw : w ∈ code) :
    wordSupported w = true ∧ wordResolved labels w = true := by
  simp only [programWf, Bool.and_eq_true, List.all_eq_true] at h
  obtain ⟨⟨hsupported, hresolved⟩, -⟩ := h
  exact ⟨hsupported w hw, hresolved w hw⟩

@[simp] theorem Instr.label?_b (cc : Cond) (l : Label) : (Instr.b cc l).label? = some l := by
  cases cc <;> rfl

namespace Machine

theorem LooksUp.label? {s : State} {i : Instr} {l : Label} (h : LooksUp s i l) : i.label? = some l := by
  obtain rfl | ⟨cc, rfl, -⟩ := h
  · rfl
  · exact Instr.label?_b cc l

/-- With its label in the table and the unbounded call stack, an instruction does not fault (R182, R185). -/
theorem exec_ne_fault {i : Instr} {s : State} (hlabel : ∀ l, i.label? = some l → ∃ e ∈ s.labels, e.1 = l)
    (hdepth : s.params.stackDepth = none) (f : Fault) : exec i s ≠ .fault f := by
  intro h
  obtain ⟨l, -, hlooks, habsent⟩ | ⟨-, -, d, hd, -⟩ := exec_fault_cases.1 h
  · obtain ⟨e, he, hel⟩ := hlabel l hlooks.label?
    exact habsent e he hel
  · simp [hdepth] at hd

/-- On a well-formed Program with the unbounded call stack a step faults only by a stop (R204). -/
theorem isStop_of_step_fault {s : State} {f : Fault} (hwf : programWf s.code s.labels = true)
    (hdepth : s.params.stackDepth = none) (h : step s = .fault f) : IsStop f := by
  obtain ⟨-, rfl⟩ | ⟨-, -, rfl⟩ | ⟨-, w, hw, hfails⟩ := step_fault.1 h
  · exact .inl rfl
  · exact .inr rfl
  · obtain ⟨hsupported, hresolved⟩ := supported_and_resolved_of_programWf hwf (List.mem_of_getElem? hw)
    obtain ⟨hr, -⟩ | ⟨i, hi, hexec⟩ := hfails
    · exact absurd (wordSupported_iff.1 hsupported) (not_exists.2 (decode_error_iff.1 hr))
    · exact absurd hexec (exec_ne_fault (fun _ => exists_label_of_wordResolved hresolved hi) hdepth f)

theorem getElem?_placeWord (code : List Word) (pc : Pc) (w : Word) : (placeWord code pc w)[pc]? = some w := by
  have hlength : (code.take pc ++ List.replicate (pc - code.length) Config.paddingWord).length = pc := by
    rw [List.length_append, List.length_take, List.length_replicate]
    omega
  rw [placeWord, List.append_assoc, List.getElem?_append_right (Nat.le_of_eq hlength), hlength, Nat.sub_self]
  rfl

/-- The resolved table has the label that the word names: as it was, or as the new last entry (R25). -/
theorem exists_label_resolveLabel {labels : List (Label × Pc)} {pc : Pc} {w : Word} {i : Instr} {l : Label}
    (hi : decode w = .ok i) (hl : i.label? = some l) : ∃ e ∈ resolveLabel labels pc w, e.1 = l := by
  simp only [resolveLabel, hi, hl]
  cases hlookup : lookupLabel labels l with
  | ok t => exact lookupLabel_ok.1 ⟨t, hlookup⟩
  | error f => exact ⟨(l, pc), by simp, rfl⟩

@[simp] theorem Proc.reset_reg (r : RegId) : Proc.reset.reg r = 0 := by
  rw [Proc.reg, get_eq_getElem]
  exact Vector.getElem_replicate _

end Machine

end Sys2Proof

section
open Sys2Proof Sys2Proof.Machine

/-- Settles O11: a step is never refused, and on a well-formed Program it faults only by a stop; of the two stops a
running core inside the program meets neither condition. -/
theorem wellFormedProgramSteps : Obligations.WellFormedProgramSteps := by
  intro s hwf hdepth
  cases hstep : step s with
  | next t => exact ⟨.inl ⟨t, hstep⟩, fun _ _ => ⟨t, rfl⟩⟩
  | refused r => exact absurd hstep (stepIsNeverRefused s r)
  | fault f =>
    have hstop : IsStop f := isStop_of_step_fault hwf hdepth hstep
    refine ⟨.inr ⟨f, hstep, hstop⟩, fun hrun hpc => ?_⟩
    obtain rfl | rfl := hstop
    · simp [step_stoppedHalted.1 hstep] at hrun
    · exact absurd (step_stoppedPcOutOfRange.1 hstep).2 (Nat.not_le.2 hpc)

/-- Settles O14: the placed word stands at the pc of a core that is not halted, and its label is resolved. -/
theorem placedWordRunsNext : Obligations.PlacedWordRunsNext := by
  intro s nbits w i hi
  exact ⟨step_eq_exec rfl (getElem?_placeWord _ _ _) hi, fun l hl => exists_label_resolveLabel hi hl⟩

/-- Settles O15: registers and memory read 0 everywhere, the other components are the table's own values. -/
theorem resetIsAllZeroNotHalted : Obligations.ResetIsAllZeroNotHalted :=
  ⟨Proc.reset_reg, Memory.read_nil, rfl, rfl, rfl, rfl⟩

/-- Settles O16: the host's reset is the first reset with the Program put back. -/
theorem hostResetClearsStateKeepsProgram : Obligations.HostResetClearsStateKeepsProgram := by
  have hrunning : statusCode none = 0 := rfl
  refine ⟨fun s => ⟨s.hostReset_proc, s.hostReset_history, ?_, s.hostReset_code, s.hostReset_labels⟩, rfl, hrunning⟩
  rw [s.hostReset_report, hrunning]

end
